-- ==== Sys2Proof/Config.lean ====
section
/-! DEFINITION. What the spec leaves to the person who runs the model: the register width XLEN
(spec/00_scope.md R3) and the values that `State.reset` takes where the spec gives none. No instruction
result is open in this spec (spec/93_implementation_defined.md part 1), so there is no free value here. -/

namespace Sys2Proof

/-- The two legal values of XLEN (R3). -/
inductive Xlen where
  | rv32
  | rv64
deriving DecidableEq, Repr

/-- XLEN: the width in bits of an integer register (R3). -/
def Xlen.bits : Xlen → Nat
  | .rv32 => 32
  | .rv64 => 64

/-- log2(XLEN): 5 when XLEN is 32, 6 when XLEN is 64 (R3, parameter table). -/
def Xlen.logBits : Xlen → Nat
  | .rv32 => 5
  | .rv64 => 6

/-- XLEN of `State.reset`. DESIGN CHOICE, unsafe (log 2): R130 makes XLEN a model argument. At 64 all 43
instructions exist (R43). -/
def Config.resetXlen : Xlen := .rv64

/-- The value of `x1` to `x31` in `State.reset`. DESIGN CHOICE, unsafe (log 3): R131 leaves them
unspecified. -/
def Config.resetRegister : Nat := 0

/-- The `pc` of `State.reset`. DESIGN CHOICE, unsafe (log 4): R132 makes it a model argument that is a
multiple of 4. -/
def Config.resetPc : Nat := 0

end Sys2Proof
end

