-- ==== Sys2Proof/Word.lean ====
section
/-! DEFINITION. The words of the hart: bytes, register values, register numbers, instruction words
(spec/00_scope.md R4, R5; spec/10_state.md R10; spec/30_encoding.md R30). -/

namespace Sys2Proof

/-- A byte is 8 bits (R5). -/
abbrev Byte := BitVec 8

/-- A register value: XLEN bits (R3, R10). -/
abbrev XWord (x : Xlen) := BitVec x.bits

/-- A register number: a 5-bit field names one of `x0` to `x31` (R10). -/
abbrev Reg := BitVec 5

/-- An instruction word is 32 bits (R4, R30). -/
abbrev InstWord := BitVec 32

end Sys2Proof
end

