-- ==== Sys2Proof/Syntax.lean ====
section
/-! DEFINITION. The instructions: one constructor for each of the 50 rows of spec/opcode_table.json, which are
the rows of spec/30_encoding.md R37 in their order, with the operands of the row's format (R33 to R36). The seven
mnemonics with two encodings have a constructor for each (`…Rv32`, `…Rv64`). Every operand value is legal (R40),
so each operand has the type of its field. -/

namespace Sys2Proof

/-- The 50 rows of R37. -/
inductive Instr where
  /-- R37 row 1, `add.uw`, format R, XLEN 64: R50. -/
  | addUw (rd rs1 rs2 : Reg)
  /-- R37 row 2, `sh1add`, format R, XLEN 32 and 64: R51. -/
  | sh1add (rd rs1 rs2 : Reg)
  /-- R37 row 3, `sh1add.uw`, format R, XLEN 64: R52. -/
  | sh1addUw (rd rs1 rs2 : Reg)
  /-- R37 row 4, `sh2add`, format R, XLEN 32 and 64: R53. -/
  | sh2add (rd rs1 rs2 : Reg)
  /-- R37 row 5, `sh2add.uw`, format R, XLEN 64: R54. -/
  | sh2addUw (rd rs1 rs2 : Reg)
  /-- R37 row 6, `sh3add`, format R, XLEN 32 and 64: R55. -/
  | sh3add (rd rs1 rs2 : Reg)
  /-- R37 row 7, `sh3add.uw`, format R, XLEN 64: R56. -/
  | sh3addUw (rd rs1 rs2 : Reg)
  /-- R37 row 8, `slli.uw`, format I6, XLEN 64: R57. -/
  | slliUw (rd rs1 : Reg) (shamt : BitVec 6)
  /-- R37 row 9, `andn`, format R, XLEN 32 and 64: R60. -/
  | andn (rd rs1 rs2 : Reg)
  /-- R37 row 10, `orn`, format R, XLEN 32 and 64: R61. -/
  | orn (rd rs1 rs2 : Reg)
  /-- R37 row 11, `xnor`, format R, XLEN 32 and 64: R62. -/
  | xnor (rd rs1 rs2 : Reg)
  /-- R37 row 12, `clz`, format U, XLEN 32 and 64: R65. -/
  | clz (rd rs1 : Reg)
  /-- R37 row 13, `clzw`, format U, XLEN 64: R66. -/
  | clzw (rd rs1 : Reg)
  /-- R37 row 14, `ctz`, format U, XLEN 32 and 64: R67. -/
  | ctz (rd rs1 : Reg)
  /-- R37 row 15, `ctzw`, format U, XLEN 64: R68. -/
  | ctzw (rd rs1 : Reg)
  /-- R37 row 16, `cpop`, format U, XLEN 32 and 64: R69. -/
  | cpop (rd rs1 : Reg)
  /-- R37 row 17, `cpopw`, format U, XLEN 64: R70. -/
  | cpopw (rd rs1 : Reg)
  /-- R37 row 18, `max`, format R, XLEN 32 and 64: R75. -/
  | max (rd rs1 rs2 : Reg)
  /-- R37 row 19, `maxu`, format R, XLEN 32 and 64: R76. -/
  | maxu (rd rs1 rs2 : Reg)
  /-- R37 row 20, `min`, format R, XLEN 32 and 64: R77. -/
  | min (rd rs1 rs2 : Reg)
  /-- R37 row 21, `minu`, format R, XLEN 32 and 64: R78. -/
  | minu (rd rs1 rs2 : Reg)
  /-- R37 row 22, `sext.b`, format U, XLEN 32 and 64: R80. -/
  | sextB (rd rs1 : Reg)
  /-- R37 row 23, `sext.h`, format U, XLEN 32 and 64: R81. -/
  | sextH (rd rs1 : Reg)
  /-- R37 row 24, `zext.h`, format U, XLEN 32: R82. -/
  | zextHRv32 (rd rs1 : Reg)
  /-- R37 row 25, `zext.h`, format U, XLEN 64: R82. -/
  | zextHRv64 (rd rs1 : Reg)
  /-- R37 row 26, `rol`, format R, XLEN 32 and 64: R85. -/
  | rol (rd rs1 rs2 : Reg)
  /-- R37 row 27, `rolw`, format R, XLEN 64: R86. -/
  | rolw (rd rs1 rs2 : Reg)
  /-- R37 row 28, `ror`, format R, XLEN 32 and 64: R87. -/
  | ror (rd rs1 rs2 : Reg)
  /-- R37 row 29, `rori`, format I5, XLEN 32: R88. -/
  | roriRv32 (rd rs1 : Reg) (shamt : BitVec 5)
  /-- R37 row 30, `rori`, format I6, XLEN 64: R88. -/
  | roriRv64 (rd rs1 : Reg) (shamt : BitVec 6)
  /-- R37 row 31, `roriw`, format I5, XLEN 64: R89. -/
  | roriw (rd rs1 : Reg) (shamt : BitVec 5)
  /-- R37 row 32, `rorw`, format R, XLEN 64: R90. -/
  | rorw (rd rs1 rs2 : Reg)
  /-- R37 row 33, `orc.b`, format U, XLEN 32 and 64: R95. -/
  | orcB (rd rs1 : Reg)
  /-- R37 row 34, `rev8`, format U, XLEN 32: R96. -/
  | rev8Rv32 (rd rs1 : Reg)
  /-- R37 row 35, `rev8`, format U, XLEN 64: R96. -/
  | rev8Rv64 (rd rs1 : Reg)
  /-- R37 row 36, `clmul`, format R, XLEN 32 and 64: R100. -/
  | clmul (rd rs1 rs2 : Reg)
  /-- R37 row 37, `clmulh`, format R, XLEN 32 and 64: R101. -/
  | clmulh (rd rs1 rs2 : Reg)
  /-- R37 row 38, `clmulr`, format R, XLEN 32 and 64: R102. -/
  | clmulr (rd rs1 rs2 : Reg)
  /-- R37 row 39, `bclr`, format R, XLEN 32 and 64: R105. -/
  | bclr (rd rs1 rs2 : Reg)
  /-- R37 row 40, `bclri`, format I5, XLEN 32: R106. -/
  | bclriRv32 (rd rs1 : Reg) (shamt : BitVec 5)
  /-- R37 row 41, `bclri`, format I6, XLEN 64: R106. -/
  | bclriRv64 (rd rs1 : Reg) (shamt : BitVec 6)
  /-- R37 row 42, `bext`, format R, XLEN 32 and 64: R107. -/
  | bext (rd rs1 rs2 : Reg)
  /-- R37 row 43, `bexti`, format I5, XLEN 32: R108. -/
  | bextiRv32 (rd rs1 : Reg) (shamt : BitVec 5)
  /-- R37 row 44, `bexti`, format I6, XLEN 64: R108. -/
  | bextiRv64 (rd rs1 : Reg) (shamt : BitVec 6)
  /-- R37 row 45, `binv`, format R, XLEN 32 and 64: R109. -/
  | binv (rd rs1 rs2 : Reg)
  /-- R37 row 46, `binvi`, format I5, XLEN 32: R110. -/
  | binviRv32 (rd rs1 : Reg) (shamt : BitVec 5)
  /-- R37 row 47, `binvi`, format I6, XLEN 64: R110. -/
  | binviRv64 (rd rs1 : Reg) (shamt : BitVec 6)
  /-- R37 row 48, `bset`, format R, XLEN 32 and 64: R111. -/
  | bset (rd rs1 rs2 : Reg)
  /-- R37 row 49, `bseti`, format I5, XLEN 32: R112. -/
  | bsetiRv32 (rd rs1 : Reg) (shamt : BitVec 5)
  /-- R37 row 50, `bseti`, format I6, XLEN 64: R112. -/
  | bsetiRv64 (rd rs1 : Reg) (shamt : BitVec 6)
deriving DecidableEq, Repr

/-- The mnemonic of the row, as spec/opcode_table.json writes it. -/
def Instr.mnemonic : Instr → String
  | .addUw _ _ _ => "add.uw"
  | .sh1add _ _ _ => "sh1add"
  | .sh1addUw _ _ _ => "sh1add.uw"
  | .sh2add _ _ _ => "sh2add"
  | .sh2addUw _ _ _ => "sh2add.uw"
  | .sh3add _ _ _ => "sh3add"
  | .sh3addUw _ _ _ => "sh3add.uw"
  | .slliUw _ _ _ => "slli.uw"
  | .andn _ _ _ => "andn"
  | .orn _ _ _ => "orn"
  | .xnor _ _ _ => "xnor"
  | .clz _ _ => "clz"
  | .clzw _ _ => "clzw"
  | .ctz _ _ => "ctz"
  | .ctzw _ _ => "ctzw"
  | .cpop _ _ => "cpop"
  | .cpopw _ _ => "cpopw"
  | .max _ _ _ => "max"
  | .maxu _ _ _ => "maxu"
  | .min _ _ _ => "min"
  | .minu _ _ _ => "minu"
  | .sextB _ _ => "sext.b"
  | .sextH _ _ => "sext.h"
  | .zextHRv32 _ _ => "zext.h"
  | .zextHRv64 _ _ => "zext.h"
  | .rol _ _ _ => "rol"
  | .rolw _ _ _ => "rolw"
  | .ror _ _ _ => "ror"
  | .roriRv32 _ _ _ => "rori"
  | .roriRv64 _ _ _ => "rori"
  | .roriw _ _ _ => "roriw"
  | .rorw _ _ _ => "rorw"
  | .orcB _ _ => "orc.b"
  | .rev8Rv32 _ _ => "rev8"
  | .rev8Rv64 _ _ => "rev8"
  | .clmul _ _ _ => "clmul"
  | .clmulh _ _ _ => "clmulh"
  | .clmulr _ _ _ => "clmulr"
  | .bclr _ _ _ => "bclr"
  | .bclriRv32 _ _ _ => "bclri"
  | .bclriRv64 _ _ _ => "bclri"
  | .bext _ _ _ => "bext"
  | .bextiRv32 _ _ _ => "bexti"
  | .bextiRv64 _ _ _ => "bexti"
  | .binv _ _ _ => "binv"
  | .binviRv32 _ _ _ => "binvi"
  | .binviRv64 _ _ _ => "binvi"
  | .bset _ _ _ => "bset"
  | .bsetiRv32 _ _ _ => "bseti"
  | .bsetiRv64 _ _ _ => "bseti"

/-- A register operand in assembler syntax: `x0` to `x31` (R48). -/
def Reg.assembly (r : Reg) : String := "x" ++ toString r.toNat

/-- The form `mn rd, rs1, rs2` of R48. -/
def assemblyR (mn : String) (rd rs1 rs2 : Reg) : String :=
  mn ++ " " ++ Reg.assembly rd ++ ", " ++ Reg.assembly rs1 ++ ", " ++ Reg.assembly rs2

/-- The form `mn rd, rs` of R48; `rs` stands in the `rs1` field. -/
def assemblyU (mn : String) (rd rs1 : Reg) : String :=
  mn ++ " " ++ Reg.assembly rd ++ ", " ++ Reg.assembly rs1

/-- The form `mn rd, rs1, shamt` of R48, the amount in decimal (log 11). -/
def assemblyI (mn : String) (rd rs1 : Reg) (shamt : Nat) : String :=
  mn ++ " " ++ Reg.assembly rd ++ ", " ++ Reg.assembly rs1 ++ ", " ++ toString shamt

/-- The instruction in the assembler syntax of R48: destination first, operands separated by commas. -/
def Instr.assembly : Instr → String
  | .addUw rd rs1 rs2 => assemblyR "add.uw" rd rs1 rs2
  | .sh1add rd rs1 rs2 => assemblyR "sh1add" rd rs1 rs2
  | .sh1addUw rd rs1 rs2 => assemblyR "sh1add.uw" rd rs1 rs2
  | .sh2add rd rs1 rs2 => assemblyR "sh2add" rd rs1 rs2
  | .sh2addUw rd rs1 rs2 => assemblyR "sh2add.uw" rd rs1 rs2
  | .sh3add rd rs1 rs2 => assemblyR "sh3add" rd rs1 rs2
  | .sh3addUw rd rs1 rs2 => assemblyR "sh3add.uw" rd rs1 rs2
  | .slliUw rd rs1 shamt => assemblyI "slli.uw" rd rs1 shamt.toNat
  | .andn rd rs1 rs2 => assemblyR "andn" rd rs1 rs2
  | .orn rd rs1 rs2 => assemblyR "orn" rd rs1 rs2
  | .xnor rd rs1 rs2 => assemblyR "xnor" rd rs1 rs2
  | .clz rd rs1 => assemblyU "clz" rd rs1
  | .clzw rd rs1 => assemblyU "clzw" rd rs1
  | .ctz rd rs1 => assemblyU "ctz" rd rs1
  | .ctzw rd rs1 => assemblyU "ctzw" rd rs1
  | .cpop rd rs1 => assemblyU "cpop" rd rs1
  | .cpopw rd rs1 => assemblyU "cpopw" rd rs1
  | .max rd rs1 rs2 => assemblyR "max" rd rs1 rs2
  | .maxu rd rs1 rs2 => assemblyR "maxu" rd rs1 rs2
  | .min rd rs1 rs2 => assemblyR "min" rd rs1 rs2
  | .minu rd rs1 rs2 => assemblyR "minu" rd rs1 rs2
  | .sextB rd rs1 => assemblyU "sext.b" rd rs1
  | .sextH rd rs1 => assemblyU "sext.h" rd rs1
  | .zextHRv32 rd rs1 => assemblyU "zext.h" rd rs1
  | .zextHRv64 rd rs1 => assemblyU "zext.h" rd rs1
  | .rol rd rs1 rs2 => assemblyR "rol" rd rs1 rs2
  | .rolw rd rs1 rs2 => assemblyR "rolw" rd rs1 rs2
  | .ror rd rs1 rs2 => assemblyR "ror" rd rs1 rs2
  | .roriRv32 rd rs1 shamt => assemblyI "rori" rd rs1 shamt.toNat
  | .roriRv64 rd rs1 shamt => assemblyI "rori" rd rs1 shamt.toNat
  | .roriw rd rs1 shamt => assemblyI "roriw" rd rs1 shamt.toNat
  | .rorw rd rs1 rs2 => assemblyR "rorw" rd rs1 rs2
  | .orcB rd rs1 => assemblyU "orc.b" rd rs1
  | .rev8Rv32 rd rs1 => assemblyU "rev8" rd rs1
  | .rev8Rv64 rd rs1 => assemblyU "rev8" rd rs1
  | .clmul rd rs1 rs2 => assemblyR "clmul" rd rs1 rs2
  | .clmulh rd rs1 rs2 => assemblyR "clmulh" rd rs1 rs2
  | .clmulr rd rs1 rs2 => assemblyR "clmulr" rd rs1 rs2
  | .bclr rd rs1 rs2 => assemblyR "bclr" rd rs1 rs2
  | .bclriRv32 rd rs1 shamt => assemblyI "bclri" rd rs1 shamt.toNat
  | .bclriRv64 rd rs1 shamt => assemblyI "bclri" rd rs1 shamt.toNat
  | .bext rd rs1 rs2 => assemblyR "bext" rd rs1 rs2
  | .bextiRv32 rd rs1 shamt => assemblyI "bexti" rd rs1 shamt.toNat
  | .bextiRv64 rd rs1 shamt => assemblyI "bexti" rd rs1 shamt.toNat
  | .binv rd rs1 rs2 => assemblyR "binv" rd rs1 rs2
  | .binviRv32 rd rs1 shamt => assemblyI "binvi" rd rs1 shamt.toNat
  | .binviRv64 rd rs1 shamt => assemblyI "binvi" rd rs1 shamt.toNat
  | .bset rd rs1 rs2 => assemblyR "bset" rd rs1 rs2
  | .bsetiRv32 rd rs1 shamt => assemblyI "bseti" rd rs1 shamt.toNat
  | .bsetiRv64 rd rs1 shamt => assemblyI "bseti" rd rs1 shamt.toNat

end Sys2Proof
end

