-- ==== Sys2Proof/WellFormed.lean ====
section
/-! DEFINITION. When an instruction is well formed: the row's XLEN column admits the hart's XLEN
(spec/30_encoding.md R37, R42, R43). The operand fields need no check: every value of every field is legal (R40),
and each field has its width in the type of the operand. -/

namespace Sys2Proof

/-- The XLEN column of R37: the row exists at this XLEN. -/
def Instr.validAt (x : Xlen) : Instr → Bool
  | .addUw _ _ _ => x == .rv64
  | .sh1add _ _ _ => true
  | .sh1addUw _ _ _ => x == .rv64
  | .sh2add _ _ _ => true
  | .sh2addUw _ _ _ => x == .rv64
  | .sh3add _ _ _ => true
  | .sh3addUw _ _ _ => x == .rv64
  | .slliUw _ _ _ => x == .rv64
  | .andn _ _ _ => true
  | .orn _ _ _ => true
  | .xnor _ _ _ => true
  | .clz _ _ => true
  | .clzw _ _ => x == .rv64
  | .ctz _ _ => true
  | .ctzw _ _ => x == .rv64
  | .cpop _ _ => true
  | .cpopw _ _ => x == .rv64
  | .max _ _ _ => true
  | .maxu _ _ _ => true
  | .min _ _ _ => true
  | .minu _ _ _ => true
  | .sextB _ _ => true
  | .sextH _ _ => true
  | .zextHRv32 _ _ => x == .rv32
  | .zextHRv64 _ _ => x == .rv64
  | .rol _ _ _ => true
  | .rolw _ _ _ => x == .rv64
  | .ror _ _ _ => true
  | .roriRv32 _ _ _ => x == .rv32
  | .roriRv64 _ _ _ => x == .rv64
  | .roriw _ _ _ => x == .rv64
  | .rorw _ _ _ => x == .rv64
  | .orcB _ _ => true
  | .rev8Rv32 _ _ => x == .rv32
  | .rev8Rv64 _ _ => x == .rv64
  | .clmul _ _ _ => true
  | .clmulh _ _ _ => true
  | .clmulr _ _ _ => true
  | .bclr _ _ _ => true
  | .bclriRv32 _ _ _ => x == .rv32
  | .bclriRv64 _ _ _ => x == .rv64
  | .bext _ _ _ => true
  | .bextiRv32 _ _ _ => x == .rv32
  | .bextiRv64 _ _ _ => x == .rv64
  | .binv _ _ _ => true
  | .binviRv32 _ _ _ => x == .rv32
  | .binviRv64 _ _ _ => x == .rv64
  | .bset _ _ _ => true
  | .bsetiRv32 _ _ _ => x == .rv32
  | .bsetiRv64 _ _ _ => x == .rv64

/-- Well formed on a hart of width `x`: the row is one of that width. -/
abbrev Instr.WellFormed (x : Xlen) (i : Instr) : Prop := i.validAt x = true

/-- The destination register `rd` (R31): every instruction writes it exactly once (R8). -/
def Instr.dest : Instr → Reg
  | .addUw rd _ _ => rd
  | .sh1add rd _ _ => rd
  | .sh1addUw rd _ _ => rd
  | .sh2add rd _ _ => rd
  | .sh2addUw rd _ _ => rd
  | .sh3add rd _ _ => rd
  | .sh3addUw rd _ _ => rd
  | .slliUw rd _ _ => rd
  | .andn rd _ _ => rd
  | .orn rd _ _ => rd
  | .xnor rd _ _ => rd
  | .clz rd _ => rd
  | .clzw rd _ => rd
  | .ctz rd _ => rd
  | .ctzw rd _ => rd
  | .cpop rd _ => rd
  | .cpopw rd _ => rd
  | .max rd _ _ => rd
  | .maxu rd _ _ => rd
  | .min rd _ _ => rd
  | .minu rd _ _ => rd
  | .sextB rd _ => rd
  | .sextH rd _ => rd
  | .zextHRv32 rd _ => rd
  | .zextHRv64 rd _ => rd
  | .rol rd _ _ => rd
  | .rolw rd _ _ => rd
  | .ror rd _ _ => rd
  | .roriRv32 rd _ _ => rd
  | .roriRv64 rd _ _ => rd
  | .roriw rd _ _ => rd
  | .rorw rd _ _ => rd
  | .orcB rd _ => rd
  | .rev8Rv32 rd _ => rd
  | .rev8Rv64 rd _ => rd
  | .clmul rd _ _ => rd
  | .clmulh rd _ _ => rd
  | .clmulr rd _ _ => rd
  | .bclr rd _ _ => rd
  | .bclriRv32 rd _ _ => rd
  | .bclriRv64 rd _ _ => rd
  | .bext rd _ _ => rd
  | .bextiRv32 rd _ _ => rd
  | .bextiRv64 rd _ _ => rd
  | .binv rd _ _ => rd
  | .binviRv32 rd _ _ => rd
  | .binviRv64 rd _ _ => rd
  | .bset rd _ _ => rd
  | .bsetiRv32 rd _ _ => rd
  | .bsetiRv64 rd _ _ => rd

/-- The source registers the instruction reads: `rs1`, and `rs2` in format R (R33 to R35). -/
def Instr.sources : Instr → List Reg
  | .addUw _ rs1 rs2 => [rs1, rs2]
  | .sh1add _ rs1 rs2 => [rs1, rs2]
  | .sh1addUw _ rs1 rs2 => [rs1, rs2]
  | .sh2add _ rs1 rs2 => [rs1, rs2]
  | .sh2addUw _ rs1 rs2 => [rs1, rs2]
  | .sh3add _ rs1 rs2 => [rs1, rs2]
  | .sh3addUw _ rs1 rs2 => [rs1, rs2]
  | .slliUw _ rs1 _ => [rs1]
  | .andn _ rs1 rs2 => [rs1, rs2]
  | .orn _ rs1 rs2 => [rs1, rs2]
  | .xnor _ rs1 rs2 => [rs1, rs2]
  | .clz _ rs1 => [rs1]
  | .clzw _ rs1 => [rs1]
  | .ctz _ rs1 => [rs1]
  | .ctzw _ rs1 => [rs1]
  | .cpop _ rs1 => [rs1]
  | .cpopw _ rs1 => [rs1]
  | .max _ rs1 rs2 => [rs1, rs2]
  | .maxu _ rs1 rs2 => [rs1, rs2]
  | .min _ rs1 rs2 => [rs1, rs2]
  | .minu _ rs1 rs2 => [rs1, rs2]
  | .sextB _ rs1 => [rs1]
  | .sextH _ rs1 => [rs1]
  | .zextHRv32 _ rs1 => [rs1]
  | .zextHRv64 _ rs1 => [rs1]
  | .rol _ rs1 rs2 => [rs1, rs2]
  | .rolw _ rs1 rs2 => [rs1, rs2]
  | .ror _ rs1 rs2 => [rs1, rs2]
  | .roriRv32 _ rs1 _ => [rs1]
  | .roriRv64 _ rs1 _ => [rs1]
  | .roriw _ rs1 _ => [rs1]
  | .rorw _ rs1 rs2 => [rs1, rs2]
  | .orcB _ rs1 => [rs1]
  | .rev8Rv32 _ rs1 => [rs1]
  | .rev8Rv64 _ rs1 => [rs1]
  | .clmul _ rs1 rs2 => [rs1, rs2]
  | .clmulh _ rs1 rs2 => [rs1, rs2]
  | .clmulr _ rs1 rs2 => [rs1, rs2]
  | .bclr _ rs1 rs2 => [rs1, rs2]
  | .bclriRv32 _ rs1 _ => [rs1]
  | .bclriRv64 _ rs1 _ => [rs1]
  | .bext _ rs1 rs2 => [rs1, rs2]
  | .bextiRv32 _ rs1 _ => [rs1]
  | .bextiRv64 _ rs1 _ => [rs1]
  | .binv _ rs1 rs2 => [rs1, rs2]
  | .binviRv32 _ rs1 _ => [rs1]
  | .binviRv64 _ rs1 _ => [rs1]
  | .bset _ rs1 rs2 => [rs1, rs2]
  | .bsetiRv32 _ rs1 _ => [rs1]
  | .bsetiRv64 _ rs1 _ => [rs1]

end Sys2Proof
end

