-- ==== Sys2Proof/Decode.lean ====
section
/-! DEFINITION. Decoding and encoding (spec/30_encoding.md). The decoder is the table R37 read by R40: a row is
selected when its XLEN column admits the hart's XLEN and `(inst & mask) == match`. It is total on any four bytes
and rejects by name (R44, R45). The encoder is written from the fields of the formats (R31 to R35) and the opcode,
funct3 and f7 / f6 / f12 columns of R37. -/

namespace Sys2Proof

/-- Why a word selects no instruction. Both are safe: the model stops where a real hart does something this spec
does not give. -/
inductive Reject where
  /-- One of the reserved words of R45: XLEN = 32 and shamt[5] = 1. -/
  | reservedEncoding
  /-- A word that matches no row of R37 at the hart's XLEN (R44). -/
  | unspecifiedWord
deriving DecidableEq, Repr

/-! ## The fields of a word -/

/-- `rd = inst[11:7]` (R31). -/
def rdOf (w : InstWord) : Reg := w.extractLsb' 7 5

/-- `rs1 = inst[19:15]` (R31). -/
def rs1Of (w : InstWord) : Reg := w.extractLsb' 15 5

/-- `rs2 = inst[24:20]` in format R (R33). -/
def rs2Of (w : InstWord) : Reg := w.extractLsb' 20 5

/-- `shamt = inst[24:20]` in format I5 (R36). -/
def shamt5Of (w : InstWord) : BitVec 5 := w.extractLsb' 20 5

/-- `shamt = inst[25:20]` in format I6 (R36). -/
def shamt6Of (w : InstWord) : BitVec 6 := w.extractLsb' 20 6

/-! ## The opcode map -/

/-- A row of R37: the XLEN column as two marks, `match` (here `pattern`), `mask`, and the instruction the row
makes of a word's operand fields. -/
structure Row where
  mnemonic : String
  at32 : Bool
  at64 : Bool
  pattern : InstWord
  mask : InstWord
  build : InstWord → Instr

/-- Masks of the formats: R33 (and I5, R35), R34, R35 (I6). -/
def maskR : InstWord := 0xFE00707F
def maskU : InstWord := 0xFFF0707F
def maskI6 : InstWord := 0xFC00707F

/-- A row of format R (R33). -/
def rowR (mn : String) (at32 at64 : Bool) (pattern : InstWord) (mk : Reg → Reg → Reg → Instr) : Row :=
  ⟨mn, at32, at64, pattern, maskR, fun w => mk (rdOf w) (rs1Of w) (rs2Of w)⟩

/-- A row of format U (R34). -/
def rowU (mn : String) (at32 at64 : Bool) (pattern : InstWord) (mk : Reg → Reg → Instr) : Row :=
  ⟨mn, at32, at64, pattern, maskU, fun w => mk (rdOf w) (rs1Of w)⟩

/-- A row of format I5 (R35). -/
def rowI5 (mn : String) (at32 at64 : Bool) (pattern : InstWord) (mk : Reg → Reg → BitVec 5 → Instr) : Row :=
  ⟨mn, at32, at64, pattern, maskR, fun w => mk (rdOf w) (rs1Of w) (shamt5Of w)⟩

/-- A row of format I6 (R35). -/
def rowI6 (mn : String) (at32 at64 : Bool) (pattern : InstWord) (mk : Reg → Reg → BitVec 6 → Instr) : Row :=
  ⟨mn, at32, at64, pattern, maskI6, fun w => mk (rdOf w) (rs1Of w) (shamt6Of w)⟩

/-- Rows 1 to 8 of R37 (spec/40_address_generation.md). -/
def addressRows : List Row := [
  rowR "add.uw" false true 0x0800003B .addUw,
  rowR "sh1add" true true 0x20002033 .sh1add,
  rowR "sh1add.uw" false true 0x2000203B .sh1addUw,
  rowR "sh2add" true true 0x20004033 .sh2add,
  rowR "sh2add.uw" false true 0x2000403B .sh2addUw,
  rowR "sh3add" true true 0x20006033 .sh3add,
  rowR "sh3add.uw" false true 0x2000603B .sh3addUw,
  rowI6 "slli.uw" false true 0x0800101B .slliUw]

/-- Rows 9 to 11 of R37 (spec/41_logical_with_negate.md). -/
def logicRows : List Row := [
  rowR "andn" true true 0x40007033 .andn,
  rowR "orn" true true 0x40006033 .orn,
  rowR "xnor" true true 0x40004033 .xnor]

/-- Rows 12 to 17 of R37 (spec/42_count_bits.md). -/
def countRows : List Row := [
  rowU "clz" true true 0x60001013 .clz,
  rowU "clzw" false true 0x6000101B .clzw,
  rowU "ctz" true true 0x60101013 .ctz,
  rowU "ctzw" false true 0x6010101B .ctzw,
  rowU "cpop" true true 0x60201013 .cpop,
  rowU "cpopw" false true 0x6020101B .cpopw]

/-- Rows 18 to 21 of R37 (spec/43_min_max.md). -/
def minMaxRows : List Row := [
  rowR "max" true true 0x0A006033 .max,
  rowR "maxu" true true 0x0A007033 .maxu,
  rowR "min" true true 0x0A004033 .min,
  rowR "minu" true true 0x0A005033 .minu]

/-- Rows 22 to 25 of R37 (spec/44_extend.md). -/
def extendRows : List Row := [
  rowU "sext.b" true true 0x60401013 .sextB,
  rowU "sext.h" true true 0x60501013 .sextH,
  rowU "zext.h" true false 0x08004033 .zextHRv32,
  rowU "zext.h" false true 0x0800403B .zextHRv64]

/-- Rows 26 to 32 of R37 (spec/45_rotate.md). -/
def rotateRows : List Row := [
  rowR "rol" true true 0x60001033 .rol,
  rowR "rolw" false true 0x6000103B .rolw,
  rowR "ror" true true 0x60005033 .ror,
  rowI5 "rori" true false 0x60005013 .roriRv32,
  rowI6 "rori" false true 0x60005013 .roriRv64,
  rowI5 "roriw" false true 0x6000501B .roriw,
  rowR "rorw" false true 0x6000503B .rorw]

/-- Rows 33 to 35 of R37 (spec/46_byte_ops.md). -/
def byteRows : List Row := [
  rowU "orc.b" true true 0x28705013 .orcB,
  rowU "rev8" true false 0x69805013 .rev8Rv32,
  rowU "rev8" false true 0x6B805013 .rev8Rv64]

/-- Rows 36 to 38 of R37 (spec/47_carryless_multiply.md). -/
def clmulRows : List Row := [
  rowR "clmul" true true 0x0A001033 .clmul,
  rowR "clmulh" true true 0x0A003033 .clmulh,
  rowR "clmulr" true true 0x0A002033 .clmulr]

/-- Rows 39 to 50 of R37 (spec/48_single_bit.md). -/
def singleBitRows : List Row := [
  rowR "bclr" true true 0x48001033 .bclr,
  rowI5 "bclri" true false 0x48001013 .bclriRv32,
  rowI6 "bclri" false true 0x48001013 .bclriRv64,
  rowR "bext" true true 0x48005033 .bext,
  rowI5 "bexti" true false 0x48005013 .bextiRv32,
  rowI6 "bexti" false true 0x48005013 .bextiRv64,
  rowR "binv" true true 0x68001033 .binv,
  rowI5 "binvi" true false 0x68001013 .binviRv32,
  rowI6 "binvi" false true 0x68001013 .binviRv64,
  rowR "bset" true true 0x28001033 .bset,
  rowI5 "bseti" true false 0x28001013 .bsetiRv32,
  rowI6 "bseti" false true 0x28001013 .bsetiRv64]

/-- The opcode map: the 50 rows of R37 in their order. -/
def rows : List Row :=
  addressRows ++ logicRows ++ countRows ++ minMaxRows ++ extendRows ++
  rotateRows ++ byteRows ++ clmulRows ++ singleBitRows

/-- The XLEN column of a row admits the hart's XLEN. -/
def Row.admits (r : Row) : Xlen → Bool
  | .rv32 => r.at32
  | .rv64 => r.at64

/-- A word selects a row when `(inst & mask) == match` and the row's XLEN column admits the hart's XLEN (R37). -/
def Row.selects (r : Row) (x : Xlen) (w : InstWord) : Bool :=
  r.admits x && (w &&& r.mask) == r.pattern

/-- The five reserved patterns of R45 under the mask 0xFE00707F: `rori`, `bclri`, `bexti`, `binvi`, `bseti` with
`inst[25]` = 1. -/
def reservedPatterns : List InstWord :=
  [0x62005013, 0x4A001013, 0x4A005013, 0x6A001013, 0x2A001013]

/-- R45: at XLEN = 32 the word is one of the reserved encodings. -/
def isReserved (x : Xlen) (w : InstWord) : Bool :=
  x == .rv32 && reservedPatterns.contains (w &&& maskR)

/-- Decode a fetched word on a hart of width `x`: R40, and where no row matches R45 and then R44, in the order
of spec/60_exceptions.md R123 (b). -/
def decodeWord (x : Xlen) (w : InstWord) : Except Reject Instr :=
  match rows.find? (fun r => r.selects x w) with
  | some r => .ok (r.build w)
  | none => if isReserved x w then .error .reservedEncoding else .error .unspecifiedWord

/-- The word of four bytes in little-endian order, the byte at the lowest address first (spec/20_memory.md R22). -/
def wordOfBytes (b0 b1 b2 b3 : Byte) : InstWord := b3 ++ b2 ++ b1 ++ b0

/-- Byte `k` of a word in the order memory holds it: bits 8k+7 to 8k (spec/20_memory.md R22). -/
def byteOfWord (w : InstWord) (k : Nat) : Byte := w.extractLsb' (8 * k) 8

/-- Decode the four bytes at `pc`, `pc+1`, `pc+2`, `pc+3`. Every instruction is four bytes long (R30), so this is
the whole decoder: it answers for any bytes. -/
def decodeBytes (x : Xlen) (b0 b1 b2 b3 : Byte) : Except Reject Instr :=
  decodeWord x (wordOfBytes b0 b1 b2 b3)

/-! ## The encoder -/

/-- Format R (R33): funct7, rs2, rs1, funct3, rd, opcode from bit 31 down. -/
def encodeR (funct7 : BitVec 7) (funct3 : BitVec 3) (opcode : BitVec 7) (rd rs1 rs2 : Reg) : InstWord :=
  funct7 ++ rs2 ++ rs1 ++ funct3 ++ rd ++ opcode

/-- Format U (R34): funct12, rs1, funct3, rd, opcode. -/
def encodeU (funct12 : BitVec 12) (funct3 : BitVec 3) (opcode : BitVec 7) (rd rs1 : Reg) : InstWord :=
  funct12 ++ rs1 ++ funct3 ++ rd ++ opcode

/-- Format I5 (R35): funct7, a 5-bit shamt, rs1, funct3, rd, opcode. -/
def encodeI5 (funct7 : BitVec 7) (funct3 : BitVec 3) (opcode : BitVec 7) (rd rs1 : Reg) (shamt : BitVec 5) :
    InstWord :=
  funct7 ++ shamt ++ rs1 ++ funct3 ++ rd ++ opcode

/-- Format I6 (R35): funct6, a 6-bit shamt, rs1, funct3, rd, opcode. -/
def encodeI6 (funct6 : BitVec 6) (funct3 : BitVec 3) (opcode : BitVec 7) (rd rs1 : Reg) (shamt : BitVec 6) :
    InstWord :=
  funct6 ++ shamt ++ rs1 ++ funct3 ++ rd ++ opcode

/-- The major opcodes of R32. -/
def opcodeOp : BitVec 7 := 0x33
def opcodeOp32 : BitVec 7 := 0x3b
def opcodeOpImm : BitVec 7 := 0x13
def opcodeOpImm32 : BitVec 7 := 0x1b

/-- The word of an instruction, by the columns format, opcode, funct3 and f7 / f6 / f12 of R37. -/
def encode : Instr → InstWord
  | .addUw rd rs1 rs2 => encodeR 0x04 0 opcodeOp32 rd rs1 rs2
  | .sh1add rd rs1 rs2 => encodeR 0x10 2 opcodeOp rd rs1 rs2
  | .sh1addUw rd rs1 rs2 => encodeR 0x10 2 opcodeOp32 rd rs1 rs2
  | .sh2add rd rs1 rs2 => encodeR 0x10 4 opcodeOp rd rs1 rs2
  | .sh2addUw rd rs1 rs2 => encodeR 0x10 4 opcodeOp32 rd rs1 rs2
  | .sh3add rd rs1 rs2 => encodeR 0x10 6 opcodeOp rd rs1 rs2
  | .sh3addUw rd rs1 rs2 => encodeR 0x10 6 opcodeOp32 rd rs1 rs2
  | .slliUw rd rs1 shamt => encodeI6 0x02 1 opcodeOpImm32 rd rs1 shamt
  | .andn rd rs1 rs2 => encodeR 0x20 7 opcodeOp rd rs1 rs2
  | .orn rd rs1 rs2 => encodeR 0x20 6 opcodeOp rd rs1 rs2
  | .xnor rd rs1 rs2 => encodeR 0x20 4 opcodeOp rd rs1 rs2
  | .clz rd rs1 => encodeU 0x600 1 opcodeOpImm rd rs1
  | .clzw rd rs1 => encodeU 0x600 1 opcodeOpImm32 rd rs1
  | .ctz rd rs1 => encodeU 0x601 1 opcodeOpImm rd rs1
  | .ctzw rd rs1 => encodeU 0x601 1 opcodeOpImm32 rd rs1
  | .cpop rd rs1 => encodeU 0x602 1 opcodeOpImm rd rs1
  | .cpopw rd rs1 => encodeU 0x602 1 opcodeOpImm32 rd rs1
  | .max rd rs1 rs2 => encodeR 0x05 6 opcodeOp rd rs1 rs2
  | .maxu rd rs1 rs2 => encodeR 0x05 7 opcodeOp rd rs1 rs2
  | .min rd rs1 rs2 => encodeR 0x05 4 opcodeOp rd rs1 rs2
  | .minu rd rs1 rs2 => encodeR 0x05 5 opcodeOp rd rs1 rs2
  | .sextB rd rs1 => encodeU 0x604 1 opcodeOpImm rd rs1
  | .sextH rd rs1 => encodeU 0x605 1 opcodeOpImm rd rs1
  | .zextHRv32 rd rs1 => encodeU 0x080 4 opcodeOp rd rs1
  | .zextHRv64 rd rs1 => encodeU 0x080 4 opcodeOp32 rd rs1
  | .rol rd rs1 rs2 => encodeR 0x30 1 opcodeOp rd rs1 rs2
  | .rolw rd rs1 rs2 => encodeR 0x30 1 opcodeOp32 rd rs1 rs2
  | .ror rd rs1 rs2 => encodeR 0x30 5 opcodeOp rd rs1 rs2
  | .roriRv32 rd rs1 shamt => encodeI5 0x30 5 opcodeOpImm rd rs1 shamt
  | .roriRv64 rd rs1 shamt => encodeI6 0x18 5 opcodeOpImm rd rs1 shamt
  | .roriw rd rs1 shamt => encodeI5 0x30 5 opcodeOpImm32 rd rs1 shamt
  | .rorw rd rs1 rs2 => encodeR 0x30 5 opcodeOp32 rd rs1 rs2
  | .orcB rd rs1 => encodeU 0x287 5 opcodeOpImm rd rs1
  | .rev8Rv32 rd rs1 => encodeU 0x698 5 opcodeOpImm rd rs1
  | .rev8Rv64 rd rs1 => encodeU 0x6b8 5 opcodeOpImm rd rs1
  | .clmul rd rs1 rs2 => encodeR 0x05 1 opcodeOp rd rs1 rs2
  | .clmulh rd rs1 rs2 => encodeR 0x05 3 opcodeOp rd rs1 rs2
  | .clmulr rd rs1 rs2 => encodeR 0x05 2 opcodeOp rd rs1 rs2
  | .bclr rd rs1 rs2 => encodeR 0x24 1 opcodeOp rd rs1 rs2
  | .bclriRv32 rd rs1 shamt => encodeI5 0x24 1 opcodeOpImm rd rs1 shamt
  | .bclriRv64 rd rs1 shamt => encodeI6 0x12 1 opcodeOpImm rd rs1 shamt
  | .bext rd rs1 rs2 => encodeR 0x24 5 opcodeOp rd rs1 rs2
  | .bextiRv32 rd rs1 shamt => encodeI5 0x24 5 opcodeOpImm rd rs1 shamt
  | .bextiRv64 rd rs1 shamt => encodeI6 0x12 5 opcodeOpImm rd rs1 shamt
  | .binv rd rs1 rs2 => encodeR 0x34 1 opcodeOp rd rs1 rs2
  | .binviRv32 rd rs1 shamt => encodeI5 0x34 1 opcodeOpImm rd rs1 shamt
  | .binviRv64 rd rs1 shamt => encodeI6 0x1a 1 opcodeOpImm rd rs1 shamt
  | .bset rd rs1 rs2 => encodeR 0x14 1 opcodeOp rd rs1 rs2
  | .bsetiRv32 rd rs1 shamt => encodeI5 0x14 1 opcodeOpImm rd rs1 shamt
  | .bsetiRv64 rd rs1 shamt => encodeI6 0x0a 1 opcodeOpImm rd rs1 shamt

/-! ## The host's question -/

/-- The word of an instruction whose bits are `w`, of which the table gives `nbits`: every bit above is 0. -/
def tableWord (nbits w : Nat) : InstWord := BitVec.ofNat 32 (w % 2 ^ nbits)

/-- The instruction the decoder reads from four bytes at one width, none where it rejects them. -/
def decodedAt (x : Xlen) (w : InstWord) : Option Instr :=
  match decodeBytes x (byteOfWord w 0) (byteOfWord w 1) (byteOfWord w 2) (byteOfWord w 3) with
  | .ok i => some i
  | .error _ => none

/-- The instruction the decoder reads from an instruction whose bits are `w`. The table's rows belong to two
widths and the question names none: the width of `State.reset` is tried first and the other width after it
(DESIGN CHOICE, log 10). -/
def decodeTableWord (nbits w : Nat) : Option Instr :=
  match decodedAt .rv64 (tableWord nbits w) with
  | some i => some i
  | none => decodedAt .rv32 (tableWord nbits w)

end Sys2Proof
end

