-- ==== Sys2Proof/Machine/State.lean ====
section
/-! DEFINITION. The state of the hart as plain data (spec/10_state.md section 8; the start state of
spec/70_reset_and_hazards.md R130 to R133), and the ways a step can stop (spec/60_exceptions.md R122). -/

namespace Sys2Proof.Machine

/-- Why a step has no next state although nothing is refused. -/
inductive Fault where
  /-- Raised by `step`: at least one of the four addresses of the fetch holds no memory (R21, R122
  `stuck(fetch)`). Safe: a real hart would run a handler this spec does not have. -/
  | stuckFetch
deriving DecidableEq, Repr

/-- Why the model gives a step no meaning. -/
inductive Refusal where
  /-- Raised by an arm of `exec` for an instruction without a meaning; no arm does. Safe. -/
  | notModelled (mnemonic : String)
  /-- Raised by `step`, and by the meanings of the RV64 rows of `rori`, `bclri`, `bexti`, `binvi` and `bseti`
  on a hart of XLEN 32 with shamt[5] = 1 (R45, R122 `refuse(reserved_encoding)`). Safe. -/
  | reservedEncoding
  /-- Raised by `step`, and by the meaning of an instruction whose word matches no row at the hart's XLEN (R44,
  R122 `refuse(unspecified_word)`). Safe. -/
  | unspecifiedWord
deriving DecidableEq, Repr

/-- The refused / stuck mark of a run (R122, R130): clear at the start, set by a step that does not execute, kept
for the rest of the run (log 7). -/
inductive Mark where
  | clear
  | stuckFetch
  | reservedEncoding
  | unspecifiedWord
deriving DecidableEq, Repr

/-- The mark a fault leaves. -/
def Fault.mark : Fault → Mark
  | .stuckFetch => .stuckFetch

/-- The mark a refusal leaves; the refusal that no arm answers leaves the mark of a word without a meaning. -/
def Refusal.mark : Refusal → Mark
  | .reservedEncoding => .reservedEncoding
  | _ => .unspecifiedWord

/-- Memory: the cells that hold memory, as (address, byte) pairs in rising order of address; an address that is
not listed holds no memory (spec/20_memory.md R20, R21; log 5). -/
abbrev Memory := List Host.Cell

/-- The canonical form of a memory: addresses strictly rising. A listed address has a byte and an unlisted one has
none, so no entry can equal what an unlisted address reads as. -/
abbrev Memory.wf (m : Memory) : Prop := m.Pairwise fun c d => c.1 < d.1

/-- The registers of a hart of width `xlen`. `x` holds `x1` to `x31` (entry k is register k + 1); `x0` has no
storage because it is hard-wired (spec/10_state.md R11, R12). -/
structure Hart (xlen : Xlen) where
  x : Vector (XWord xlen) 31
  pc : XWord xlen
deriving DecidableEq, Repr

/-- The whole state: XLEN (constant during a run, log 1), the registers, memory, and the mark. -/
structure State where
  xlen : Xlen
  hart : Hart xlen
  mem : Memory
  mark : Mark
deriving DecidableEq, Repr

/-- The outcome of a step. -/
abbrev Out := Host.Outcome State Fault Refusal

/-- The start state of R133: a tuple (XLEN, mem, regs, pc0); the mark is clear (R130). -/
def State.start (xlen : Xlen) (mem : Memory) (regs : Vector (XWord xlen) 31) (pc0 : XWord xlen) : State where
  xlen := xlen
  hart := { x := regs, pc := pc0 }
  mem := mem
  mark := .clear

/-- The machine right after reset. The spec replaces reset by a start state that the person who runs the model
supplies (R130): the values here are the model's (log 2 XLEN, log 3 registers, log 4 pc, log 5 memory); only
`x0` = 0 and the clear mark are the spec's. -/
def State.reset : State :=
  State.start Config.resetXlen [] (Vector.replicate 31 (BitVec.ofNat _ Config.resetRegister))
    (BitVec.ofNat _ Config.resetPc)

end Sys2Proof.Machine
end

