-- ==== Sys2Proof/Machine/Ops.lean ====
section
/-! DEFINITION. The named operations over registers, the program counter and memory. The hardware has no trap
mechanism (spec/60_exceptions.md R121), so there is no operation here that takes an exception or returns from
one. -/

namespace Sys2Proof.Machine

/-! ## Registers -/

/-- Register read `x[i]` (spec/10_state.md R11): `x0` reads 0. -/
def Hart.reg (h : Hart xl) (r : Reg) : XWord xl :=
  if r = 0#5 then 0#xl.bits else h.x[r.toNat - 1]'(by have := r.isLt; omega)

/-- Register write `x[i] <- v` (R12): a write to `x0` is discarded. -/
def Hart.setReg (h : Hart xl) (r : Reg) (v : XWord xl) : Hart xl :=
  if r = 0#5 then h else { h with x := h.x.set (r.toNat - 1) v (by have := r.isLt; omega) }

/-- `pc <- (pc + 4) mod 2^XLEN` (R15). -/
def Hart.advance (h : Hart xl) : Hart xl := { h with pc := h.pc + 4 }

/-- The value `x[r]` in a state. -/
def State.reg (s : State) (r : Reg) : XWord s.xlen := s.hart.reg r

/-- The end of every instruction (spec/00_scope.md R8): write `rd`, then advance the `pc`. Nothing else of the
state changes. -/
def State.retire (s : State) (rd : Reg) (v : XWord s.xlen) : State :=
  { s with hart := (s.hart.setReg rd v).advance }

/-! ## Which rows exist at the hart's XLEN -/

/-- An instruction whose rows exist only at XLEN = `x`: at the other width its word selects no instruction
(spec/30_encoding.md R42, R43, R44). -/
def State.onlyOn (s : State) (x : Xlen) (out : Out) : Out :=
  if s.xlen = x then out else .refused .unspecifiedWord

/-- A 6-bit shift amount on a hart of XLEN 32: the encodings with shamt[5] = 1 are reserved and are never
executed with bit 5 dropped (R45). -/
def State.unlessReserved (s : State) (shamt : BitVec 6) (out : Out) : Out :=
  if s.xlen = .rv32 ∧ shamt.getLsbD 5 = true then .refused .reservedEncoding else out

/-! ## Memory -/

/-- Read one byte; none where the address holds no memory (spec/20_memory.md R20, R21). -/
def Memory.read : Memory → Nat → Option Byte
  | [], _ => none
  | (a, b) :: m, k => if a = k then some b else Memory.read m k

/-- Put a byte at an address, keeping the canonical form. No instruction does this (R23): it places the bytes of a
start state (spec/70_reset_and_hazards.md R134). -/
def Memory.write : Memory → Nat → Byte → Memory
  | [], k, b => [(k, b)]
  | (a, c) :: m, k, b =>
    if k < a then (k, b) :: (a, c) :: m
    else if k = a then (k, b) :: m
    else (a, c) :: Memory.write m k b

/-- Take an address out of memory: it holds no memory afterwards (the write of "no value"). -/
def Memory.remove : Memory → Nat → Memory
  | [], _ => []
  | (a, c) :: m, k => if a = k then m else (a, c) :: Memory.remove m k

/-- The address of byte `k` of the fetch: `pc + k` modulo 2^XLEN (spec/60_exceptions.md R122). -/
def State.fetchAddr (s : State) (k : Nat) : Nat := (s.hart.pc + BitVec.ofNat s.xlen.bits k).toNat

/-- Fetch: the four bytes at `pc` to `pc + 3`, little-endian; none if any of them holds no memory (R21, R22). -/
def State.fetch (s : State) : Option InstWord :=
  match s.mem.read (s.fetchAddr 0), s.mem.read (s.fetchAddr 1), s.mem.read (s.fetchAddr 2),
      s.mem.read (s.fetchAddr 3) with
  | some b0, some b1, some b2, some b3 => some (wordOfBytes b0 b1 b2 b3)
  | _, _, _, _ => none

/-! ## Stopping -/

/-- The refusal of a word the decoder rejects (R122). -/
def refuse : Reject → Out
  | .reservedEncoding => .refused .reservedEncoding
  | .unspecifiedWord => .refused .unspecifiedWord

/-- What a marked run answers: the reason it already stopped for (R122: the mark is kept for the rest of the run).
None while the mark is clear. -/
def Mark.stop : Mark → Option Out
  | .clear => none
  | .stuckFetch => some (.fault .stuckFetch)
  | .reservedEncoding => some (.refused .reservedEncoding)
  | .unspecifiedWord => some (.refused .unspecifiedWord)

/-! ## Building a start state -/

/-- Place a word at `pc + 4n` modulo 2^XLEN, lowest byte first (R134, R22). -/
def State.loadWordAt (s : State) (n : Nat) (w : InstWord) : State :=
  { s with
    mem := (((s.mem.write (s.fetchAddr (4 * n)) (byteOfWord w 0)).write (s.fetchAddr (4 * n + 1))
      (byteOfWord w 1)).write (s.fetchAddr (4 * n + 2)) (byteOfWord w 2)).write (s.fetchAddr (4 * n + 3))
      (byteOfWord w 3) }

/-- Place a word where the next step fetches it. -/
def State.loadWord (s : State) (w : InstWord) : State := s.loadWordAt 0 w

/-- Place words at consecutive addresses from `pc + 4n` on (R134). -/
def State.loadWordsAt (s : State) (n : Nat) : List InstWord → State
  | [] => s
  | w :: ws => (s.loadWordAt n w).loadWordsAt (n + 1) ws

/-- Place a program's words in memory at consecutive addresses starting at `pc` (R134). -/
def State.loadWords (s : State) (ws : List InstWord) : State := s.loadWordsAt 0 ws

/-- The same start state for a hart of width `x`: registers and `pc` keep their low bits (zero-extended upwards),
and of memory the addresses of the new width stay. XLEN is a model argument (R3), so this is the host choosing
it anew, not something a step does (log 6). -/
def State.atXlen (s : State) (x : Xlen) : State :=
  if s.xlen = x then s
  else { xlen := x,
         hart := { x := s.hart.x.map (fun v => v.setWidth x.bits), pc := s.hart.pc.setWidth x.bits },
         mem := s.mem.filter (fun c => c.1 < 2 ^ x.bits),
         mark := s.mark }

/-- The width at which a word is an instruction: the hart's own where it is one there, else the other width where
it is one there, else the hart's own. -/
def xlenFor (x : Xlen) (w : InstWord) : Xlen :=
  if (decodedAt x w).isSome then x
  else match x with
    | .rv32 => if (decodedAt .rv64 w).isSome then .rv64 else .rv32
    | .rv64 => if (decodedAt .rv32 w).isSome then .rv32 else .rv64

end Sys2Proof.Machine
end

