-- ==== Sys2Proof/Machine/Operands.lean ====
section
/-! DEFINITION. The operand forms: the low word of a register and its extensions, and the shift or index amount
taken from a register (spec/00_scope.md R5, R6; spec/45_rotate.md; spec/48_single_bit.md). Immediate amounts are
the `shamt` field itself (spec/30_encoding.md R36). -/

namespace Sys2Proof.Machine

/-- The least-significant word of a register value: bits 31 to 0 (R5). -/
def lowWord (v : BitVec n) : BitVec 32 := v.extractLsb' 0 32

/-- `zext_XLEN(v[31:0])` (R6). -/
def zextWord (v : BitVec n) : BitVec n := (lowWord v).setWidth n

/-- `sext_XLEN(w)` of a 32-bit word (R6). -/
def sextWord (w : BitVec 32) : BitVec n := w.signExtend n

/-- The low log2(XLEN) bits of a register value as a number: `v[4:0]` when XLEN is 32, `v[5:0]` when XLEN is 64
(R85, R87), the index `v & (XLEN - 1)` of the single-bit instructions (R105). -/
def amountXlen (v : XWord xl) : Nat := (v.extractLsb' 0 xl.logBits).toNat

/-- The low five bits of a register value as a number, the amount of the `w` rotates (R86, R90). -/
def amountWord (v : BitVec n) : Nat := (v.extractLsb' 0 5).toNat

end Sys2Proof.Machine
end

