-- ==== Sys2Proof/Machine/AddressGeneration.lean ====
section
/-! DEFINITION. spec/40_address_generation.md: `add.uw`, `sh1add`, `sh1add.uw`, `sh2add`, `sh2add.uw`, `sh3add`,
`sh3add.uw`, `slli.uw`. They access no memory (spec/20_memory.md R29). -/

namespace Sys2Proof.Machine

/-- `base + (index << k)`, shift and sum on XLEN-bit values, the carry discarded (spec/00_scope.md R7). -/
def shiftAdd (k : Nat) (index base : BitVec n) : BitVec n := base + (index <<< k)

/-- R50 `add.uw`: the low word of `rs1` zero-extended, plus `rs2`. -/
def execAddUw (rd rs1 rs2 : Reg) (s : State) : Out :=
  s.onlyOn .rv64 (.next (s.retire rd (shiftAdd 0 (zextWord (s.reg rs1)) (s.reg rs2))))

/-- R51 `sh1add`. -/
def execSh1add (rd rs1 rs2 : Reg) (s : State) : Out :=
  .next (s.retire rd (shiftAdd 1 (s.reg rs1) (s.reg rs2)))

/-- R52 `sh1add.uw`: the zero-extension comes before the shift. -/
def execSh1addUw (rd rs1 rs2 : Reg) (s : State) : Out :=
  s.onlyOn .rv64 (.next (s.retire rd (shiftAdd 1 (zextWord (s.reg rs1)) (s.reg rs2))))

/-- R53 `sh2add`. -/
def execSh2add (rd rs1 rs2 : Reg) (s : State) : Out :=
  .next (s.retire rd (shiftAdd 2 (s.reg rs1) (s.reg rs2)))

/-- R54 `sh2add.uw`. -/
def execSh2addUw (rd rs1 rs2 : Reg) (s : State) : Out :=
  s.onlyOn .rv64 (.next (s.retire rd (shiftAdd 2 (zextWord (s.reg rs1)) (s.reg rs2))))

/-- R55 `sh3add`. -/
def execSh3add (rd rs1 rs2 : Reg) (s : State) : Out :=
  .next (s.retire rd (shiftAdd 3 (s.reg rs1) (s.reg rs2)))

/-- R56 `sh3add.uw`. -/
def execSh3addUw (rd rs1 rs2 : Reg) (s : State) : Out :=
  s.onlyOn .rv64 (.next (s.retire rd (shiftAdd 3 (zextWord (s.reg rs1)) (s.reg rs2))))

/-- R57 `slli.uw`: all 64 amounts are legal (R46). -/
def execSlliUw (rd rs1 : Reg) (shamt : BitVec 6) (s : State) : Out :=
  s.onlyOn .rv64 (.next (s.retire rd (zextWord (s.reg rs1) <<< shamt.toNat)))

end Sys2Proof.Machine
end

