-- ==== Sys2Proof/Machine/ByteOps.lean ====
section
/-! DEFINITION. spec/46_byte_ops.md: `orc.b`, `rev8`. Byte k of a register value is its bits 8k+7 to 8k. -/

namespace Sys2Proof.Machine

/-- Byte `k` of a value: `v[8k+7:8k]`. -/
def byteAt (v : BitVec n) (k : Nat) : BitVec 8 := v.extractLsb' (8 * k) 8

/-- The value whose bytes 0 to `count - 1` are `byte 0`, `byte 1`, … and whose other bits are 0. -/
def ofBytes (byte : Nat → BitVec 8) : (count : Nat) → BitVec n
  | 0 => 0
  | k + 1 => ofBytes byte k ||| ((byte k).setWidth n <<< (8 * k))

/-- R95: each byte becomes 0x00 if it is 0 and 0xFF otherwise. -/
def orCombine (v : BitVec n) : BitVec n :=
  ofBytes (fun k => if byteAt v k = 0 then 0x00 else 0xFF) (n / 8)

/-- R96: byte k of the result is byte n-1-k of the source (90_conflicts.md C7). -/
def reverseBytes (v : BitVec n) : BitVec n := ofBytes (fun k => byteAt v (n / 8 - 1 - k)) (n / 8)

/-- R95 `orc.b`. -/
def execOrcB (rd rs1 : Reg) (s : State) : Out := .next (s.retire rd (orCombine (s.reg rs1)))

/-- R96 `rev8`, the RV32 encoding: not an instruction at XLEN = 64 (spec/30_encoding.md R42). -/
def execRev8Rv32 (rd rs1 : Reg) (s : State) : Out :=
  s.onlyOn .rv32 (.next (s.retire rd (reverseBytes (s.reg rs1))))

/-- R96 `rev8`, the RV64 encoding: not an instruction at XLEN = 32 (R42). -/
def execRev8Rv64 (rd rs1 : Reg) (s : State) : Out :=
  s.onlyOn .rv64 (.next (s.retire rd (reverseBytes (s.reg rs1))))

end Sys2Proof.Machine
end

