-- ==== Sys2Proof/Machine/CarrylessMultiply.lean ====
section
/-! DEFINITION. spec/47_carryless_multiply.md: `clmul`, `clmulh`, `clmulr`, with the carry-less product of its
introduction. -/

namespace Sys2Proof.Machine

/-- The loop of `clprod(a, b)`: its first `k` turns, on a value of 2·XLEN bits. -/
def carrylessPartial (a b : BitVec n) : (k : Nat) → BitVec (2 * n)
  | 0 => 0
  | k + 1 =>
    if b.getLsbD k then carrylessPartial a b k ^^^ (a.setWidth (2 * n) <<< k) else carrylessPartial a b k

/-- `clprod(a, b)`: the carry-less product, 2·XLEN bits. -/
def carrylessProduct (a b : BitVec n) : BitVec (2 * n) := carrylessPartial a b n

/-- R100: bits XLEN-1 to 0 of the product. -/
def carrylessLow (a b : BitVec n) : BitVec n := (carrylessProduct a b).extractLsb' 0 n

/-- R101: bits 2·XLEN-1 to XLEN of the product (90_conflicts.md C8). -/
def carrylessHigh (a b : BitVec n) : BitVec n := (carrylessProduct a b).extractLsb' n n

/-- R102: bits 2·XLEN-2 to XLEN-1 of the product. -/
def carrylessReversed (a b : BitVec n) : BitVec n := (carrylessProduct a b).extractLsb' (n - 1) n

/-- R100 `clmul`. -/
def execClmul (rd rs1 rs2 : Reg) (s : State) : Out :=
  .next (s.retire rd (carrylessLow (s.reg rs1) (s.reg rs2)))

/-- R101 `clmulh`. -/
def execClmulh (rd rs1 rs2 : Reg) (s : State) : Out :=
  .next (s.retire rd (carrylessHigh (s.reg rs1) (s.reg rs2)))

/-- R102 `clmulr`. -/
def execClmulr (rd rs1 rs2 : Reg) (s : State) : Out :=
  .next (s.retire rd (carrylessReversed (s.reg rs1) (s.reg rs2)))

end Sys2Proof.Machine
end

