-- ==== Sys2Proof/Machine/CountBits.lean ====
section
/-! DEFINITION. spec/42_count_bits.md: `clz`, `clzw`, `ctz`, `ctzw`, `cpop`, `cpopw`, with the helper functions of
its introduction. A zero input has a defined result. -/

namespace Sys2Proof.Machine

/-- The loops of `clz_N` and `ctz_N`: `left` turns from `i` on, answering the first `i` with `hit i`, or where the
loop ended. -/
def firstHit (hit : Nat → Bool) : (left i : Nat) → Nat
  | 0, i => i
  | left + 1, i => if hit i then i else firstHit hit left (i + 1)

/-- `clz_N(v)`: the first i from 0 to N-1 with `v[N-1-i]` = 1, else N. -/
def countLeadingZeros (v : BitVec n) : Nat := firstHit (fun i => v.getLsbD (n - 1 - i)) n 0

/-- `ctz_N(v)`: the first i from 0 to N-1 with `v[i]` = 1, else N (90_conflicts.md C3). -/
def countTrailingZeros (v : BitVec n) : Nat := firstHit (fun i => v.getLsbD i) n 0

/-- The loop of `pop_N`: the number of 1 bits among the `k` lowest. -/
def countOnesBelow (v : BitVec n) : Nat → Nat
  | 0 => 0
  | k + 1 => if v.getLsbD k then countOnesBelow v k + 1 else countOnesBelow v k

/-- `pop_N(v)`: the number of 1 bits. -/
def countOnes (v : BitVec n) : Nat := countOnesBelow v n

/-- A count written as an XLEN-bit value with zeros above it (spec/00_scope.md R7 (e)). -/
def countValue (c : Nat) : BitVec n := BitVec.ofNat n c

/-- R65 `clz`. -/
def execClz (rd rs1 : Reg) (s : State) : Out :=
  .next (s.retire rd (countValue (countLeadingZeros (s.reg rs1))))

/-- R66 `clzw`: only bits 31 to 0 are examined (90_conflicts.md C2). -/
def execClzw (rd rs1 : Reg) (s : State) : Out :=
  s.onlyOn .rv64 (.next (s.retire rd (countValue (countLeadingZeros (lowWord (s.reg rs1))))))

/-- R67 `ctz`. -/
def execCtz (rd rs1 : Reg) (s : State) : Out :=
  .next (s.retire rd (countValue (countTrailingZeros (s.reg rs1))))

/-- R68 `ctzw`. -/
def execCtzw (rd rs1 : Reg) (s : State) : Out :=
  s.onlyOn .rv64 (.next (s.retire rd (countValue (countTrailingZeros (lowWord (s.reg rs1))))))

/-- R69 `cpop`. -/
def execCpop (rd rs1 : Reg) (s : State) : Out :=
  .next (s.retire rd (countValue (countOnes (s.reg rs1))))

/-- R70 `cpopw`. -/
def execCpopw (rd rs1 : Reg) (s : State) : Out :=
  s.onlyOn .rv64 (.next (s.retire rd (countValue (countOnes (lowWord (s.reg rs1))))))

end Sys2Proof.Machine
end

