-- ==== Sys2Proof/Machine/Extend.lean ====
section
/-! DEFINITION. spec/44_extend.md: `sext.b`, `sext.h`, `zext.h`. -/

namespace Sys2Proof.Machine

/-- The least-significant byte: bits 7 to 0 (spec/00_scope.md R5). -/
def lowByte (v : BitVec n) : BitVec 8 := v.extractLsb' 0 8

/-- The least-significant halfword: bits 15 to 0 (R5). -/
def lowHalf (v : BitVec n) : BitVec 16 := v.extractLsb' 0 16

/-- R80 `sext.b`. -/
def execSextB (rd rs1 : Reg) (s : State) : Out :=
  .next (s.retire rd ((lowByte (s.reg rs1)).signExtend s.xlen.bits))

/-- R81 `sext.h`. -/
def execSextH (rd rs1 : Reg) (s : State) : Out :=
  .next (s.retire rd ((lowHalf (s.reg rs1)).signExtend s.xlen.bits))

/-- R82 `zext.h`, the effect, the same at both widths. -/
def zextHalf (rd rs1 : Reg) (s : State) : Out :=
  .next (s.retire rd ((lowHalf (s.reg rs1)).setWidth s.xlen.bits))

/-- R82 `zext.h`, the RV32 encoding: not an instruction at XLEN = 64 (spec/30_encoding.md R42). -/
def execZextHRv32 (rd rs1 : Reg) (s : State) : Out := s.onlyOn .rv32 (zextHalf rd rs1 s)

/-- R82 `zext.h`, the RV64 encoding: not an instruction at XLEN = 32 (R42). -/
def execZextHRv64 (rd rs1 : Reg) (s : State) : Out := s.onlyOn .rv64 (zextHalf rd rs1 s)

end Sys2Proof.Machine
end

