-- ==== Sys2Proof/Machine/Logic.lean ====
section
/-! DEFINITION. spec/41_logical_with_negate.md: `andn`, `orn`, `xnor`. It is `rs2` that is inverted. -/

namespace Sys2Proof.Machine

/-- R60 `andn`. -/
def execAndn (rd rs1 rs2 : Reg) (s : State) : Out :=
  .next (s.retire rd (s.reg rs1 &&& ~~~(s.reg rs2)))

/-- R61 `orn`. -/
def execOrn (rd rs1 rs2 : Reg) (s : State) : Out :=
  .next (s.retire rd (s.reg rs1 ||| ~~~(s.reg rs2)))

/-- R62 `xnor`. -/
def execXnor (rd rs1 rs2 : Reg) (s : State) : Out :=
  .next (s.retire rd (~~~(s.reg rs1 ^^^ s.reg rs2)))

end Sys2Proof.Machine
end

