-- ==== Sys2Proof/Machine/Flags.lean ====
section
/-! DEFINITION. Flags. The hardware has none: no instruction writes or reads a flag, a carry, an overflow bit or a
condition code (spec/10_state.md R16). A comparison's outcome is only used to select a register value, so the two
comparisons of spec/00_scope.md R6 are all that stands here. -/

namespace Sys2Proof.Machine

/-- `a <_s b`: both read as two's-complement signed integers (R6). -/
def ltSigned (a b : BitVec n) : Bool := decide (a.toInt < b.toInt)

/-- `a <_u b`: both read as unsigned integers (R6). -/
def ltUnsigned (a b : BitVec n) : Bool := decide (a.toNat < b.toNat)

end Sys2Proof.Machine
end

