-- ==== Sys2Proof/Machine/MinMax.lean ====
section
/-! DEFINITION. spec/43_min_max.md: `max`, `maxu`, `min`, `minu`, on the full XLEN-bit values. -/

namespace Sys2Proof.Machine

/-- R75 `max`: `if a <_s b then b else a`. -/
def execMax (rd rs1 rs2 : Reg) (s : State) : Out :=
  .next (s.retire rd (if ltSigned (s.reg rs1) (s.reg rs2) then s.reg rs2 else s.reg rs1))

/-- R76 `maxu`: `if a <_u b then b else a`. -/
def execMaxu (rd rs1 rs2 : Reg) (s : State) : Out :=
  .next (s.retire rd (if ltUnsigned (s.reg rs1) (s.reg rs2) then s.reg rs2 else s.reg rs1))

/-- R77 `min`: `if a <_s b then a else b`. -/
def execMin (rd rs1 rs2 : Reg) (s : State) : Out :=
  .next (s.retire rd (if ltSigned (s.reg rs1) (s.reg rs2) then s.reg rs1 else s.reg rs2))

/-- R78 `minu`: `if a <_u b then a else b`. -/
def execMinu (rd rs1 rs2 : Reg) (s : State) : Out :=
  .next (s.retire rd (if ltUnsigned (s.reg rs1) (s.reg rs2) then s.reg rs1 else s.reg rs2))

end Sys2Proof.Machine
end

