-- ==== Sys2Proof/Machine/Rotate.lean ====
section
/-! DEFINITION. spec/45_rotate.md: `rol`, `rolw`, `ror`, `rori`, `roriw`, `rorw`, with the helper functions of its
introduction. -/

namespace Sys2Proof.Machine

/-- `rotl_N(v, s)`; a shift by the full width gives 0 (spec/00_scope.md R6, 90_conflicts.md C9). -/
def rotateLeft (v : BitVec n) (amount : Nat) : BitVec n := (v <<< amount) ||| (v >>> (n - amount))

/-- `rotr_N(v, s)`. -/
def rotateRight (v : BitVec n) (amount : Nat) : BitVec n := (v >>> amount) ||| (v <<< (n - amount))

/-- R85 `rol`. -/
def execRol (rd rs1 rs2 : Reg) (s : State) : Out :=
  .next (s.retire rd (rotateLeft (s.reg rs1) (amountXlen (s.reg rs2))))

/-- R86 `rolw`: the rotate is within the low word, the result is sign-extended. -/
def execRolw (rd rs1 rs2 : Reg) (s : State) : Out :=
  s.onlyOn .rv64
    (.next (s.retire rd (sextWord (rotateLeft (lowWord (s.reg rs1)) (amountWord (s.reg rs2))))))

/-- R87 `ror`. -/
def execRor (rd rs1 rs2 : Reg) (s : State) : Out :=
  .next (s.retire rd (rotateRight (s.reg rs1) (amountXlen (s.reg rs2))))

/-- R88 `rori`, the RV32 encoding (format I5). Its word is the RV64 encoding with `inst[25]` = 0
(spec/30_encoding.md R35), so it rotates at either width (log 9). -/
def execRoriRv32 (rd rs1 : Reg) (shamt : BitVec 5) (s : State) : Out :=
  .next (s.retire rd (rotateRight (s.reg rs1) shamt.toNat))

/-- R88 `rori`, the RV64 encoding (format I6): reserved at XLEN = 32 with shamt[5] = 1 (R45). -/
def execRoriRv64 (rd rs1 : Reg) (shamt : BitVec 6) (s : State) : Out :=
  s.unlessReserved shamt (.next (s.retire rd (rotateRight (s.reg rs1) shamt.toNat)))

/-- R89 `roriw`: the amount is the 5-bit field (90_conflicts.md C5). -/
def execRoriw (rd rs1 : Reg) (shamt : BitVec 5) (s : State) : Out :=
  s.onlyOn .rv64 (.next (s.retire rd (sextWord (rotateRight (lowWord (s.reg rs1)) shamt.toNat))))

/-- R90 `rorw` (90_conflicts.md C4). -/
def execRorw (rd rs1 rs2 : Reg) (s : State) : Out :=
  s.onlyOn .rv64
    (.next (s.retire rd (sextWord (rotateRight (lowWord (s.reg rs1)) (amountWord (s.reg rs2))))))

end Sys2Proof.Machine
end

