-- ==== Sys2Proof/Machine/SingleBit.lean ====
section
/-! DEFINITION. spec/48_single_bit.md: `bclr`, `bclri`, `bext`, `bexti`, `binv`, `binvi`, `bset`, `bseti`. The index
of a register form is the low log2(XLEN) bits of `rs2`; of an immediate form it is `shamt`. The RV32 word of an
immediate form is its RV64 word with `inst[25]` = 0 (spec/30_encoding.md R35), so it acts at either width (log 9);
the RV64 row with shamt[5] = 1 is reserved at XLEN = 32 (R45). -/

namespace Sys2Proof.Machine

/-- `1 << index`: the XLEN-bit value with only bit `index` set. -/
def oneBit (n index : Nat) : BitVec n := 1#n <<< index

/-- `v & ~(1 << index)` (R105, R106). -/
def clearBit (v : BitVec n) (index : Nat) : BitVec n := v &&& ~~~(oneBit n index)

/-- `zext_XLEN((v >> index)[0])` (R107, R108). -/
def extractBit (v : BitVec n) (index : Nat) : BitVec n := ((v >>> index).extractLsb' 0 1).setWidth n

/-- `v ^ (1 << index)` (R109, R110). -/
def invertBit (v : BitVec n) (index : Nat) : BitVec n := v ^^^ oneBit n index

/-- `v | (1 << index)` (R111, R112). -/
def setBit (v : BitVec n) (index : Nat) : BitVec n := v ||| oneBit n index

/-- R105 `bclr`. -/
def execBclr (rd rs1 rs2 : Reg) (s : State) : Out :=
  .next (s.retire rd (clearBit (s.reg rs1) (amountXlen (s.reg rs2))))

/-- R106 `bclri`, the RV32 encoding. -/
def execBclriRv32 (rd rs1 : Reg) (shamt : BitVec 5) (s : State) : Out :=
  .next (s.retire rd (clearBit (s.reg rs1) shamt.toNat))

/-- R106 `bclri`, the RV64 encoding. -/
def execBclriRv64 (rd rs1 : Reg) (shamt : BitVec 6) (s : State) : Out :=
  s.unlessReserved shamt (.next (s.retire rd (clearBit (s.reg rs1) shamt.toNat)))

/-- R107 `bext`. -/
def execBext (rd rs1 rs2 : Reg) (s : State) : Out :=
  .next (s.retire rd (extractBit (s.reg rs1) (amountXlen (s.reg rs2))))

/-- R108 `bexti`, the RV32 encoding. -/
def execBextiRv32 (rd rs1 : Reg) (shamt : BitVec 5) (s : State) : Out :=
  .next (s.retire rd (extractBit (s.reg rs1) shamt.toNat))

/-- R108 `bexti`, the RV64 encoding. -/
def execBextiRv64 (rd rs1 : Reg) (shamt : BitVec 6) (s : State) : Out :=
  s.unlessReserved shamt (.next (s.retire rd (extractBit (s.reg rs1) shamt.toNat)))

/-- R109 `binv`. -/
def execBinv (rd rs1 rs2 : Reg) (s : State) : Out :=
  .next (s.retire rd (invertBit (s.reg rs1) (amountXlen (s.reg rs2))))

/-- R110 `binvi`, the RV32 encoding. -/
def execBinviRv32 (rd rs1 : Reg) (shamt : BitVec 5) (s : State) : Out :=
  .next (s.retire rd (invertBit (s.reg rs1) shamt.toNat))

/-- R110 `binvi`, the RV64 encoding. -/
def execBinviRv64 (rd rs1 : Reg) (shamt : BitVec 6) (s : State) : Out :=
  s.unlessReserved shamt (.next (s.retire rd (invertBit (s.reg rs1) shamt.toNat)))

/-- R111 `bset`. -/
def execBset (rd rs1 rs2 : Reg) (s : State) : Out :=
  .next (s.retire rd (setBit (s.reg rs1) (amountXlen (s.reg rs2))))

/-- R112 `bseti`, the RV32 encoding. -/
def execBsetiRv32 (rd rs1 : Reg) (shamt : BitVec 5) (s : State) : Out :=
  .next (s.retire rd (setBit (s.reg rs1) shamt.toNat))

/-- R112 `bseti`, the RV64 encoding. -/
def execBsetiRv64 (rd rs1 : Reg) (shamt : BitVec 6) (s : State) : Out :=
  s.unlessReserved shamt (.next (s.retire rd (setBit (s.reg rs1) shamt.toNat)))

end Sys2Proof.Machine
end

