-- ==== Sys2Proof/Machine/Dispatch.lean ====
section
/-! DEFINITION. The dispatch: one arm for each constructor of Instr, in the order of spec/30_encoding.md R37. -/

namespace Sys2Proof.Machine

def exec (i : Instr) (s : State) : Host.Outcome State Fault Refusal :=
  match i with
  | .addUw rd rs1 rs2 => Sys2Proof.Machine.execAddUw rd rs1 rs2 s
  | .sh1add rd rs1 rs2 => Sys2Proof.Machine.execSh1add rd rs1 rs2 s
  | .sh1addUw rd rs1 rs2 => Sys2Proof.Machine.execSh1addUw rd rs1 rs2 s
  | .sh2add rd rs1 rs2 => Sys2Proof.Machine.execSh2add rd rs1 rs2 s
  | .sh2addUw rd rs1 rs2 => Sys2Proof.Machine.execSh2addUw rd rs1 rs2 s
  | .sh3add rd rs1 rs2 => Sys2Proof.Machine.execSh3add rd rs1 rs2 s
  | .sh3addUw rd rs1 rs2 => Sys2Proof.Machine.execSh3addUw rd rs1 rs2 s
  | .slliUw rd rs1 shamt => Sys2Proof.Machine.execSlliUw rd rs1 shamt s
  | .andn rd rs1 rs2 => Sys2Proof.Machine.execAndn rd rs1 rs2 s
  | .orn rd rs1 rs2 => Sys2Proof.Machine.execOrn rd rs1 rs2 s
  | .xnor rd rs1 rs2 => Sys2Proof.Machine.execXnor rd rs1 rs2 s
  | .clz rd rs1 => Sys2Proof.Machine.execClz rd rs1 s
  | .clzw rd rs1 => Sys2Proof.Machine.execClzw rd rs1 s
  | .ctz rd rs1 => Sys2Proof.Machine.execCtz rd rs1 s
  | .ctzw rd rs1 => Sys2Proof.Machine.execCtzw rd rs1 s
  | .cpop rd rs1 => Sys2Proof.Machine.execCpop rd rs1 s
  | .cpopw rd rs1 => Sys2Proof.Machine.execCpopw rd rs1 s
  | .max rd rs1 rs2 => Sys2Proof.Machine.execMax rd rs1 rs2 s
  | .maxu rd rs1 rs2 => Sys2Proof.Machine.execMaxu rd rs1 rs2 s
  | .min rd rs1 rs2 => Sys2Proof.Machine.execMin rd rs1 rs2 s
  | .minu rd rs1 rs2 => Sys2Proof.Machine.execMinu rd rs1 rs2 s
  | .sextB rd rs1 => Sys2Proof.Machine.execSextB rd rs1 s
  | .sextH rd rs1 => Sys2Proof.Machine.execSextH rd rs1 s
  | .zextHRv32 rd rs1 => Sys2Proof.Machine.execZextHRv32 rd rs1 s
  | .zextHRv64 rd rs1 => Sys2Proof.Machine.execZextHRv64 rd rs1 s
  | .rol rd rs1 rs2 => Sys2Proof.Machine.execRol rd rs1 rs2 s
  | .rolw rd rs1 rs2 => Sys2Proof.Machine.execRolw rd rs1 rs2 s
  | .ror rd rs1 rs2 => Sys2Proof.Machine.execRor rd rs1 rs2 s
  | .roriRv32 rd rs1 shamt => Sys2Proof.Machine.execRoriRv32 rd rs1 shamt s
  | .roriRv64 rd rs1 shamt => Sys2Proof.Machine.execRoriRv64 rd rs1 shamt s
  | .roriw rd rs1 shamt => Sys2Proof.Machine.execRoriw rd rs1 shamt s
  | .rorw rd rs1 rs2 => Sys2Proof.Machine.execRorw rd rs1 rs2 s
  | .orcB rd rs1 => Sys2Proof.Machine.execOrcB rd rs1 s
  | .rev8Rv32 rd rs1 => Sys2Proof.Machine.execRev8Rv32 rd rs1 s
  | .rev8Rv64 rd rs1 => Sys2Proof.Machine.execRev8Rv64 rd rs1 s
  | .clmul rd rs1 rs2 => Sys2Proof.Machine.execClmul rd rs1 rs2 s
  | .clmulh rd rs1 rs2 => Sys2Proof.Machine.execClmulh rd rs1 rs2 s
  | .clmulr rd rs1 rs2 => Sys2Proof.Machine.execClmulr rd rs1 rs2 s
  | .bclr rd rs1 rs2 => Sys2Proof.Machine.execBclr rd rs1 rs2 s
  | .bclriRv32 rd rs1 shamt => Sys2Proof.Machine.execBclriRv32 rd rs1 shamt s
  | .bclriRv64 rd rs1 shamt => Sys2Proof.Machine.execBclriRv64 rd rs1 shamt s
  | .bext rd rs1 rs2 => Sys2Proof.Machine.execBext rd rs1 rs2 s
  | .bextiRv32 rd rs1 shamt => Sys2Proof.Machine.execBextiRv32 rd rs1 shamt s
  | .bextiRv64 rd rs1 shamt => Sys2Proof.Machine.execBextiRv64 rd rs1 shamt s
  | .binv rd rs1 rs2 => Sys2Proof.Machine.execBinv rd rs1 rs2 s
  | .binviRv32 rd rs1 shamt => Sys2Proof.Machine.execBinviRv32 rd rs1 shamt s
  | .binviRv64 rd rs1 shamt => Sys2Proof.Machine.execBinviRv64 rd rs1 shamt s
  | .bset rd rs1 rs2 => Sys2Proof.Machine.execBset rd rs1 rs2 s
  | .bsetiRv32 rd rs1 shamt => Sys2Proof.Machine.execBsetiRv32 rd rs1 shamt s
  | .bsetiRv64 rd rs1 shamt => Sys2Proof.Machine.execBsetiRv64 rd rs1 shamt s

end Sys2Proof.Machine
end

