-- ==== Sys2Proof/Machine/Step.lean ====
section
/-! DEFINITION. One step (spec/60_exceptions.md R122, R123). -/

namespace Sys2Proof.Machine

/-- The decode and execute stages of a step for a fetched word (R123 (b), (c)). -/
def executeWord (w : InstWord) (s : State) : Out :=
  match decodeWord s.xlen w with
  | .ok i => exec i s
  | .error r => refuse r

/-- One step, in the order of R123: fetch, then decode, then execute. A marked run has already stopped and answers
its reason again (R122, log 7). -/
def step (s : State) : Host.Outcome State Fault Refusal :=
  match s.mark.stop with
  | some out => out
  | none =>
    match s.fetch with
    | none => .fault .stuckFetch
    | some w => executeWord w s

/-- The state with an instruction placed where the next step fetches: the mark is cleared, XLEN is the width at
which the word is an instruction (the state's own where it is one there, log 6), and the four bytes at `pc` to
`pc + 3` are the word's. -/
def State.withFetchWord (s : State) (nbits w : Nat) : State :=
  { s.atXlen (xlenFor s.xlen (tableWord nbits w)) with mark := .clear }.loadWord (tableWord nbits w)

end Sys2Proof.Machine
end

