-- ==== Sys2Proof/Machine/Run.lean ====
section
/-! DEFINITION. A run and its end (spec/60_exceptions.md R129), with the refused / stuck mark kept in the state
(R122). -/

namespace Sys2Proof.Machine

/-- R129 (a), bounded observation: the state after `n` steps, defined when the first `n` steps are all
`executed`; else the reason of the first step that is not. -/
def runFor : Nat → State → Out
  | 0, s => .next s
  | n + 1, s =>
    match step s with
    | .next t => runFor n t
    | .fault r => .fault r
    | .refused r => .refused r

/-- One step of an observed run: the next state, or, where the step does not execute, the same state with the
reason as its mark (R122: no effect on the state but the mark). -/
def advance (s : State) : State :=
  match step s with
  | .next t => t
  | .fault r => { s with mark := r.mark }
  | .refused r => { s with mark := r.mark }

/-- R129 (b): the run seen for `n` steps. Once marked it stays as it stopped, with `pc` at the word it stopped
on. -/
def observe : Nat → State → State
  | 0, s => s
  | n + 1, s => observe n (advance s)

end Sys2Proof.Machine
end

