-- ==== Sys2Proof/Safety.lean ====
section
/-! DEFINITION. The terms claims are stated in: what a start state and a safe run are, what an instruction may change,
and the spec's words for results (counts, signed readings, rotated bits, bytes, product bits) as facts about
natural numbers. -/

namespace Sys2Proof.Machine

/-! ## Observations: every register, the pc and a byte as plain numbers -/

/-- The number a register reads as. -/
def State.regNat (s : State) (r : Reg) : Nat := (s.reg r).toNat

/-- The address the `pc` holds. -/
def State.pcNat (s : State) : Nat := s.hart.pc.toNat

/-! ## Start states and safe runs -/

/-- The invariant of the hart: memory is in canonical form and lists only addresses of XLEN bits
(spec/20_memory.md R20), and the `pc` is a multiple of 4 (spec/10_state.md R14). -/
structure State.WF (s : State) : Prop where
  canonical : s.mem.wf
  inRange : ∀ c ∈ s.mem, c.1 < 2 ^ s.xlen.bits
  aligned : s.pcNat % 4 = 0

/-- A start state (spec/70_reset_and_hazards.md R130, R132, R133): well formed, with a clear mark. -/
structure State.IsStart (s : State) : Prop where
  wf : s.WF
  clear : s.mark = .clear

/-- The run of `n` steps from `s` is safe: every one of them executes (spec/60_exceptions.md R129 (a)). -/
def SafeFor (n : Nat) (s : State) : Prop := ∃ t, runFor n s = .next t

/-! ## What an instruction does -/

/-- The whole effect of an instruction in scope (spec/00_scope.md R8): from `s` to `t` the register `rd` takes the
value `v` unless it is `x0`, the `pc` moves on by 4 modulo 2^XLEN, and every other register, every byte of memory,
XLEN and the mark stay. -/
structure Writes (s t : State) (rd : Reg) (v : Nat) : Prop where
  fits : v < 2 ^ s.xlen.bits
  xlen : t.xlen = s.xlen
  mark : t.mark = s.mark
  memory : ∀ a, t.mem.read a = s.mem.read a
  pc : t.pcNat = (s.pcNat + 4) % 2 ^ s.xlen.bits
  dest : rd ≠ 0#5 → t.regNat rd = v
  others : ∀ r, r ≠ rd → t.regNat r = s.regNat r
  zero : t.regNat 0#5 = 0

/-- The instruction completes in `s`, its effect being to write `v` to its destination. -/
def Completes (i : Instr) (s : State) (v : Nat) : Prop := ∃ t, exec i s = .next t ∧ Writes s t i.dest v

/-- The instruction is refused in `s` as an unspecified word (R44). -/
def RefusedUnspecified (i : Instr) (s : State) : Prop := exec i s = .refused .unspecifiedWord

/-- The instruction is refused in `s` as a reserved encoding (R45). -/
def RefusedReserved (i : Instr) (s : State) : Prop := exec i s = .refused .reservedEncoding

/-! ## What a word means -/

/-- Format R with its fields where R31 and R33 put them. -/
def asR (mk : Reg → Reg → Reg → Instr) (w : InstWord) : Instr :=
  mk (w.extractLsb' 7 5) (w.extractLsb' 15 5) (w.extractLsb' 20 5)

/-- Format U with its fields where R31 and R34 put them. -/
def asU (mk : Reg → Reg → Instr) (w : InstWord) : Instr := mk (w.extractLsb' 7 5) (w.extractLsb' 15 5)

/-- Format I5 with its fields where R31, R35 and R36 put them: shamt is `inst[24:20]`. -/
def asI5 (mk : Reg → Reg → BitVec 5 → Instr) (w : InstWord) : Instr :=
  mk (w.extractLsb' 7 5) (w.extractLsb' 15 5) (w.extractLsb' 20 5)

/-- Format I6 with its fields where R31, R35 and R36 put them: shamt is `inst[25:20]`. -/
def asI6 (mk : Reg → Reg → BitVec 6 → Instr) (w : InstWord) : Instr :=
  mk (w.extractLsb' 7 5) (w.extractLsb' 15 5) (w.extractLsb' 20 6)

/-- At width `x` every word with `(inst & mask) == pattern` decodes to the instruction `mk` makes of it. -/
def WordsMean (x : Xlen) (mask pattern : InstWord) (mk : InstWord → Instr) : Prop :=
  ∀ w, w &&& mask = pattern → decodeWord x w = .ok (mk w)

/-- At width `x` every word with `(inst & mask) == pattern` is an unspecified word (R44). -/
def WordsUnspecified (x : Xlen) (mask pattern : InstWord) : Prop :=
  ∀ w, w &&& mask = pattern → decodeWord x w = .error .unspecifiedWord

/-- The reserved words of R45: XLEN is 32 and the word under the mask 0xFE00707F is one of the five listed. -/
def IsReservedWord (x : Xlen) (w : InstWord) : Prop :=
  x = .rv32 ∧ (w &&& 0xFE00707F#32 = 0x62005013#32 ∨ w &&& 0xFE00707F#32 = 0x4A001013#32 ∨
    w &&& 0xFE00707F#32 = 0x4A005013#32 ∨ w &&& 0xFE00707F#32 = 0x6A001013#32 ∨
    w &&& 0xFE00707F#32 = 0x2A001013#32)

/-- All of a shift-immediate mnemonic with an RV32 and an RV64 encoding (R35, R45): the words of each, the words with
shamt[5] = 1 reserved at XLEN = 32, and at each width completion with the result `result N a shamt v` of the source
value `a`. -/
def ImmediateForm (pattern reserved : InstWord) (mk5 : Reg → Reg → BitVec 5 → Instr)
    (mk6 : Reg → Reg → BitVec 6 → Instr) (result : Nat → Nat → Nat → Nat → Prop) : Prop :=
  WordsMean .rv32 0xFE00707F#32 pattern (asI5 mk5) ∧ WordsMean .rv64 0xFC00707F#32 pattern (asI6 mk6) ∧
  (∀ w, w &&& 0xFE00707F#32 = reserved → decodeWord .rv32 w = .error .reservedEncoding) ∧
  ∀ (rd rs1 : Reg) (s : State),
    (∀ shamt, s.xlen = .rv32 →
      ∃ v, Completes (mk5 rd rs1 shamt) s v ∧ result 32 (s.regNat rs1) shamt.toNat v) ∧
    (∀ shamt, s.xlen = .rv64 →
      ∃ v, Completes (mk6 rd rs1 shamt) s v ∧ result 64 (s.regNat rs1) shamt.toNat v)

/-- The word at `pc + 4k` lies whole in memory and is an instruction at the hart's width. -/
def InstructionAt (s : State) (k : Nat) : Prop :=
  ∃ b0 b1 b2 b3 i,
    s.mem.read ((s.pcNat + 4 * k) % 2 ^ s.xlen.bits) = some b0 ∧
    s.mem.read ((s.pcNat + 4 * k + 1) % 2 ^ s.xlen.bits) = some b1 ∧
    s.mem.read ((s.pcNat + 4 * k + 2) % 2 ^ s.xlen.bits) = some b2 ∧
    s.mem.read ((s.pcNat + 4 * k + 3) % 2 ^ s.xlen.bits) = some b3 ∧
    decodeBytes s.xlen b0 b1 b2 b3 = .ok i

/-! ## The spec's words for results -/

/-- The two's-complement reading of an N-bit value (spec/00_scope.md R6). -/
def signedReading (n a : Nat) : Int := if a < 2 ^ (n - 1) then (a : Int) else (a : Int) - 2 ^ n

/-- `c` is the number of 0 bits before the first 1 of an N-bit value, from bit N-1 downward; N when there is no 1
(R65). -/
def IsLeadingZeros (n a c : Nat) : Prop :=
  c ≤ n ∧ (∀ k, n - c ≤ k → k < n → a.testBit k = false) ∧ (c < n → a.testBit (n - 1 - c) = true)

/-- `c` is the number of 0 bits before the first 1 of an N-bit value, from bit 0 upward; N when there is no 1
(R67). -/
def IsTrailingZeros (n a c : Nat) : Prop :=
  c ≤ n ∧ (∀ k, k < c → a.testBit k = false) ∧ (c < n → a.testBit c = true)

/-- The number of 1 bits among bits N-1 to 0 (R69). -/
def onesOf (n a : Nat) : Nat := (List.range n).countP (fun k => a.testBit k)

/-- Bit i of `a` stands at bit (i + amount) mod N of `v` (spec/45_rotate.md, introduction). -/
def IsRotatedLeft (n a amount v : Nat) : Prop := ∀ i, i < n → v.testBit ((i + amount) % n) = a.testBit i

/-- Bit (i + amount) mod N of `a` stands at bit i of `v`: a rotate to the right. -/
def IsRotatedRight (n a amount v : Nat) : Prop := ∀ i, i < n → v.testBit i = a.testBit ((i + amount) % n)

/-- Bits 63 to 32 of `v` are copies of its bit 31. -/
def HighWordCopiesBit31 (v : Nat) : Prop := ∀ i, 32 ≤ i → i < 64 → v.testBit i = v.testBit 31

/-- `v` is `a` with bit `k` cleared (R105). -/
def ClearsBit (n a k v : Nat) : Prop := ∀ i, i < n → v.testBit i = (a.testBit i && i != k)

/-- `v` is bit `k` of `a`, as 0 or 1 (R107). -/
def ExtractsBit (_n a k v : Nat) : Prop := v = if a.testBit k then 1 else 0

/-- `v` is `a` with bit `k` inverted (R109). -/
def InvertsBit (n a k v : Nat) : Prop := ∀ i, i < n → v.testBit i = (a.testBit i != (i == k))

/-- `v` is `a` with bit `k` set (R111). -/
def SetsBit (n a k v : Nat) : Prop := ∀ i, i < n → v.testBit i = (a.testBit i || i == k)

/-- Byte `k` of a number. -/
def byteOf (a k : Nat) : Nat := a / 256 ^ k % 256

/-- Bit `k` of the carry-less product: the exclusive OR over i + j = k of `a[j] & b[i]`
(spec/47_carryless_multiply.md, introduction). -/
def productBit (a b k : Nat) : Bool :=
  (List.range (k + 1)).countP (fun i => a.testBit (k - i) && b.testBit i) % 2 == 1

/-- The loop the source writes for `clmul`, `clmulh` and `clmulr`: from turn `start` on, for each of `turns` turns
i, exclusive-OR `term i` in where `b[i]` is 1 (R100, R101, R102). -/
def xorLoop (b : BitVec n) (term : Nat → BitVec n) (start turns : Nat) : BitVec n :=
  (List.range' start turns).foldl (fun out i => if b.getLsbD i then out ^^^ term i else out) 0

end Sys2Proof.Machine
end

