-- ==== Sys2Proof/Certificates/Slice0/Obligations.lean ====
section
/-! DEFINITION. The statements for the provers. Results are stated over natural numbers (State.regNat, Writes in
Sys2Proof/Safety.lean), so that they say in the spec's own terms what a register holds afterwards; `Completes i s v`
says that `exec i s` answers a next state whose whole difference from `s` is `v` in the destination (nothing for `x0`)
and the `pc` 4 further. -/

open Sys2Proof Sys2Proof.Machine

/-! ## The instructions -/

/-- R50: `add.uw` exists at XLEN = 64 only and writes the sum modulo 2^64 of `rs2` and the zero-extended low word of
`rs1`. -/
def Obligations.AddUwAddsZeroExtendedLowWord : Prop :=
  WordsMean .rv64 0xFE00707F#32 0x0800003B#32 (asR .addUw) ∧ WordsUnspecified .rv32 0xFE00707F#32 0x0800003B#32 ∧
  ∀ (rd rs1 rs2 : Reg) (s : State), s.xlen = .rv64 →
    Completes (.addUw rd rs1 rs2) s ((s.regNat rs2 + s.regNat rs1 % 2 ^ 32) % 2 ^ 64)

/-- R51, R53, R55: `sh1add`, `sh2add`, `sh3add` write, at either width, the sum modulo 2^XLEN of `rs2` and `rs1`
shifted left by 1, 2, 3 places with the bits shifted above XLEN-1 lost. -/
def Obligations.ShiftAddsSumRs2AndShiftedRs1 : Prop :=
  (∀ x, WordsMean x 0xFE00707F#32 0x20002033#32 (asR .sh1add)) ∧
  (∀ x, WordsMean x 0xFE00707F#32 0x20004033#32 (asR .sh2add)) ∧
  (∀ x, WordsMean x 0xFE00707F#32 0x20006033#32 (asR .sh3add)) ∧
  ∀ (rd rs1 rs2 : Reg) (s : State),
    Completes (.sh1add rd rs1 rs2) s
      ((s.regNat rs2 + s.regNat rs1 * 2 % 2 ^ s.xlen.bits) % 2 ^ s.xlen.bits) ∧
    Completes (.sh2add rd rs1 rs2) s
      ((s.regNat rs2 + s.regNat rs1 * 4 % 2 ^ s.xlen.bits) % 2 ^ s.xlen.bits) ∧
    Completes (.sh3add rd rs1 rs2) s
      ((s.regNat rs2 + s.regNat rs1 * 8 % 2 ^ s.xlen.bits) % 2 ^ s.xlen.bits)

/-- R52, R54, R56: `sh1add.uw`, `sh2add.uw`, `sh3add.uw` exist at XLEN = 64 only and write the sum modulo 2^64 of
`rs2` and the zero-extended low word of `rs1` shifted left by 1, 2, 3 places, no bit of which is lost. -/
def Obligations.ShiftAddUwsSumRs2AndShiftedLowWord : Prop :=
  WordsMean .rv64 0xFE00707F#32 0x2000203B#32 (asR .sh1addUw) ∧ WordsUnspecified .rv32 0xFE00707F#32 0x2000203B#32 ∧
  WordsMean .rv64 0xFE00707F#32 0x2000403B#32 (asR .sh2addUw) ∧ WordsUnspecified .rv32 0xFE00707F#32 0x2000403B#32 ∧
  WordsMean .rv64 0xFE00707F#32 0x2000603B#32 (asR .sh3addUw) ∧ WordsUnspecified .rv32 0xFE00707F#32 0x2000603B#32 ∧
  ∀ (rd rs1 rs2 : Reg) (s : State), s.xlen = .rv64 →
    Completes (.sh1addUw rd rs1 rs2) s ((s.regNat rs2 + s.regNat rs1 % 2 ^ 32 * 2) % 2 ^ 64) ∧
    Completes (.sh2addUw rd rs1 rs2) s ((s.regNat rs2 + s.regNat rs1 % 2 ^ 32 * 4) % 2 ^ 64) ∧
    Completes (.sh3addUw rd rs1 rs2) s ((s.regNat rs2 + s.regNat rs1 % 2 ^ 32 * 8) % 2 ^ 64)

/-- R57: `slli.uw` exists at XLEN = 64 only and writes the zero-extended low word of `rs1` shifted left by any of the
64 amounts, the bits above bit 63 lost. -/
def Obligations.SlliUwShiftsZeroExtendedLowWord : Prop :=
  WordsMean .rv64 0xFC00707F#32 0x0800101B#32 (asI6 .slliUw) ∧ WordsUnspecified .rv32 0xFC00707F#32 0x0800101B#32 ∧
  ∀ (rd rs1 : Reg) (shamt : BitVec 6) (s : State), s.xlen = .rv64 →
    Completes (.slliUw rd rs1 shamt) s (s.regNat rs1 % 2 ^ 32 * 2 ^ shamt.toNat % 2 ^ 64)

/-- R60, R61, R62: `andn`, `orn`, `xnor`, bit by bit over all XLEN bits; it is `rs2` that is inverted. -/
def Obligations.LogicWithInvertedOperandBitByBit : Prop :=
  (∀ x, WordsMean x 0xFE00707F#32 0x40007033#32 (asR .andn)) ∧
  (∀ x, WordsMean x 0xFE00707F#32 0x40006033#32 (asR .orn)) ∧
  (∀ x, WordsMean x 0xFE00707F#32 0x40004033#32 (asR .xnor)) ∧
  ∀ (rd rs1 rs2 : Reg) (s : State),
    (∃ v, Completes (.andn rd rs1 rs2) s v ∧
      ∀ k, k < s.xlen.bits → v.testBit k = ((s.regNat rs1).testBit k && !(s.regNat rs2).testBit k)) ∧
    (∃ v, Completes (.orn rd rs1 rs2) s v ∧
      ∀ k, k < s.xlen.bits → v.testBit k = ((s.regNat rs1).testBit k || !(s.regNat rs2).testBit k)) ∧
    (∃ v, Completes (.xnor rd rs1 rs2) s v ∧
      ∀ k, k < s.xlen.bits → v.testBit k = ((s.regNat rs1).testBit k == (s.regNat rs2).testBit k))

/-- R65, R66: `clz` counts the 0 bits before the first 1 from bit XLEN-1 down, `clzw` from bit 31 down in the low word
at XLEN = 64 only; with no 1 the counts are XLEN and 32. -/
def Obligations.LeadingZeroCounts : Prop :=
  (∀ x, WordsMean x 0xFFF0707F#32 0x60001013#32 (asU .clz)) ∧
  WordsMean .rv64 0xFFF0707F#32 0x6000101B#32 (asU .clzw) ∧ WordsUnspecified .rv32 0xFFF0707F#32 0x6000101B#32 ∧
  ∀ (rd rs1 : Reg) (s : State),
    (∃ c, Completes (.clz rd rs1) s c ∧ IsLeadingZeros s.xlen.bits (s.regNat rs1) c) ∧
    (s.xlen = .rv64 → ∃ c, Completes (.clzw rd rs1) s c ∧ IsLeadingZeros 32 (s.regNat rs1 % 2 ^ 32) c)

/-- R67, R68: `ctz` counts the 0 bits before the first 1 from bit 0 up, `ctzw` in the low word at XLEN = 64 only; with
no 1 the counts are XLEN and 32. -/
def Obligations.TrailingZeroCounts : Prop :=
  (∀ x, WordsMean x 0xFFF0707F#32 0x60101013#32 (asU .ctz)) ∧
  WordsMean .rv64 0xFFF0707F#32 0x6010101B#32 (asU .ctzw) ∧ WordsUnspecified .rv32 0xFFF0707F#32 0x6010101B#32 ∧
  ∀ (rd rs1 : Reg) (s : State),
    (∃ c, Completes (.ctz rd rs1) s c ∧ IsTrailingZeros s.xlen.bits (s.regNat rs1) c) ∧
    (s.xlen = .rv64 → ∃ c, Completes (.ctzw rd rs1) s c ∧ IsTrailingZeros 32 (s.regNat rs1 % 2 ^ 32) c)

/-- R69, R70: `cpop` counts the 1 bits of the register, `cpopw` those of its low word at XLEN = 64 only. -/
def Obligations.PopulationCounts : Prop :=
  (∀ x, WordsMean x 0xFFF0707F#32 0x60201013#32 (asU .cpop)) ∧
  WordsMean .rv64 0xFFF0707F#32 0x6020101B#32 (asU .cpopw) ∧ WordsUnspecified .rv32 0xFFF0707F#32 0x6020101B#32 ∧
  ∀ (rd rs1 : Reg) (s : State),
    Completes (.cpop rd rs1) s (onesOf s.xlen.bits (s.regNat rs1)) ∧
    (s.xlen = .rv64 → Completes (.cpopw rd rs1) s (onesOf 32 (s.regNat rs1)))

/-- R75, R77: `max` and `min` write the larger and the smaller of the two values read as signed integers. -/
def Obligations.SignedMaxAndMin : Prop :=
  (∀ x, WordsMean x 0xFE00707F#32 0x0A006033#32 (asR .max)) ∧
  (∀ x, WordsMean x 0xFE00707F#32 0x0A004033#32 (asR .min)) ∧
  ∀ (rd rs1 rs2 : Reg) (s : State),
    Completes (.max rd rs1 rs2) s
      (if signedReading s.xlen.bits (s.regNat rs1) < signedReading s.xlen.bits (s.regNat rs2)
        then s.regNat rs2 else s.regNat rs1) ∧
    Completes (.min rd rs1 rs2) s
      (if signedReading s.xlen.bits (s.regNat rs1) < signedReading s.xlen.bits (s.regNat rs2)
        then s.regNat rs1 else s.regNat rs2)

/-- R76, R78: `maxu` and `minu` write the larger and the smaller of the two values read as unsigned integers. -/
def Obligations.UnsignedMaxAndMin : Prop :=
  (∀ x, WordsMean x 0xFE00707F#32 0x0A007033#32 (asR .maxu)) ∧
  (∀ x, WordsMean x 0xFE00707F#32 0x0A005033#32 (asR .minu)) ∧
  ∀ (rd rs1 rs2 : Reg) (s : State),
    Completes (.maxu rd rs1 rs2) s (max (s.regNat rs1) (s.regNat rs2)) ∧
    Completes (.minu rd rs1 rs2) s (min (s.regNat rs1) (s.regNat rs2))

/-- R80, R81: `sext.b` and `sext.h` copy bit 7 and bit 15 of the source to every higher bit and keep the bits below. -/
def Obligations.SignExtensionsCopyTheirTopBit : Prop :=
  (∀ x, WordsMean x 0xFFF0707F#32 0x60401013#32 (asU .sextB)) ∧
  (∀ x, WordsMean x 0xFFF0707F#32 0x60501013#32 (asU .sextH)) ∧
  ∀ (rd rs1 : Reg) (s : State),
    (∃ v, Completes (.sextB rd rs1) s v ∧
      ∀ k, k < s.xlen.bits → v.testBit k = (s.regNat rs1).testBit (min k 7)) ∧
    (∃ v, Completes (.sextH rd rs1) s v ∧
      ∀ k, k < s.xlen.bits → v.testBit k = (s.regNat rs1).testBit (min k 15))

/-- R82: `zext.h` writes bits 15 to 0 of the source, with one encoding at each width, neither of which is an
instruction at the other; with bits 24 to 20 not all 0 the word is unspecified. -/
def Obligations.ZextHKeepsLowHalfword : Prop :=
  WordsMean .rv32 0xFFF0707F#32 0x08004033#32 (asU .zextHRv32) ∧
  WordsMean .rv64 0xFFF0707F#32 0x0800403B#32 (asU .zextHRv64) ∧
  WordsUnspecified .rv64 0xFFF0707F#32 0x08004033#32 ∧
  WordsUnspecified .rv32 0xFFF0707F#32 0x0800403B#32 ∧
  (∀ x w, w.extractLsb' 20 5 ≠ 0#5 → (w &&& 0xFE00707F#32 = 0x08004033#32 ∨ w &&& 0xFE00707F#32 = 0x0800403B#32) →
    decodeWord x w = .error .unspecifiedWord) ∧
  ∀ (rd rs1 : Reg) (s : State),
    (s.xlen = .rv32 → Completes (.zextHRv32 rd rs1) s (s.regNat rs1 % 2 ^ 16)) ∧
    (s.xlen = .rv64 → Completes (.zextHRv64 rd rs1) s (s.regNat rs1 % 2 ^ 16))

/-- R85, R87: `rol` and `ror` rotate the register by the low log2(XLEN) bits of `rs2`, that is by `rs2` modulo XLEN. -/
def Obligations.RegisterRotates : Prop :=
  (∀ x, WordsMean x 0xFE00707F#32 0x60001033#32 (asR .rol)) ∧
  (∀ x, WordsMean x 0xFE00707F#32 0x60005033#32 (asR .ror)) ∧
  ∀ (rd rs1 rs2 : Reg) (s : State),
    (∃ v, Completes (.rol rd rs1 rs2) s v ∧
      IsRotatedLeft s.xlen.bits (s.regNat rs1) (s.regNat rs2 % s.xlen.bits) v) ∧
    (∃ v, Completes (.ror rd rs1 rs2) s v ∧
      IsRotatedRight s.xlen.bits (s.regNat rs1) (s.regNat rs2 % s.xlen.bits) v)

/-- R86, R90: `rolw` and `rorw`, at XLEN = 64 only, rotate within the low word by the low 5 bits of `rs2` and
sign-extend the rotated word. -/
def Obligations.WordRotatesByRegister : Prop :=
  WordsMean .rv64 0xFE00707F#32 0x6000103B#32 (asR .rolw) ∧ WordsUnspecified .rv32 0xFE00707F#32 0x6000103B#32 ∧
  WordsMean .rv64 0xFE00707F#32 0x6000503B#32 (asR .rorw) ∧ WordsUnspecified .rv32 0xFE00707F#32 0x6000503B#32 ∧
  ∀ (rd rs1 rs2 : Reg) (s : State), s.xlen = .rv64 →
    (∃ v, Completes (.rolw rd rs1 rs2) s v ∧ IsRotatedLeft 32 (s.regNat rs1) (s.regNat rs2 % 32) v ∧
      HighWordCopiesBit31 v) ∧
    (∃ v, Completes (.rorw rd rs1 rs2) s v ∧ IsRotatedRight 32 (s.regNat rs1) (s.regNat rs2 % 32) v ∧
      HighWordCopiesBit31 v)

/-- R88: `rori` rotates right by the immediate of the row that matched; at XLEN = 32 the words with shamt[5] = 1 are
rejected as reserved. -/
def Obligations.RoriRotatesRight : Prop :=
  ImmediateForm 0x60005013#32 0x62005013#32 .roriRv32 .roriRv64 IsRotatedRight

/-- R89: `roriw`, at XLEN = 64 only, rotates within the low word by its 5-bit immediate and sign-extends. -/
def Obligations.RoriwRotatesLowWord : Prop :=
  WordsMean .rv64 0xFE00707F#32 0x6000501B#32 (asI5 .roriw) ∧ WordsUnspecified .rv32 0xFE00707F#32 0x6000501B#32 ∧
  ∀ (rd rs1 : Reg) (shamt : BitVec 5) (s : State), s.xlen = .rv64 →
    ∃ v, Completes (.roriw rd rs1 shamt) s v ∧
      IsRotatedRight 32 (s.regNat rs1) shamt.toNat v ∧ HighWordCopiesBit31 v

/-- R95: `orc.b` makes each byte 0x00 where the source byte is 0 and 0xFF elsewhere. -/
def Obligations.OrcBFillsNonzeroBytes : Prop :=
  (∀ x, WordsMean x 0xFFF0707F#32 0x28705013#32 (asU .orcB)) ∧
  ∀ (rd rs1 : Reg) (s : State),
    ∃ v, Completes (.orcB rd rs1) s v ∧
      ∀ k, k < s.xlen.bits / 8 → byteOf v k = if byteOf (s.regNat rs1) k = 0 then 0 else 255

/-- R96: `rev8` puts byte n-1-k of the source in byte k, with one encoding at each width, neither of which is an
instruction at the other. -/
def Obligations.Rev8ReversesBytes : Prop :=
  WordsMean .rv32 0xFFF0707F#32 0x69805013#32 (asU .rev8Rv32) ∧
  WordsMean .rv64 0xFFF0707F#32 0x6B805013#32 (asU .rev8Rv64) ∧
  WordsUnspecified .rv64 0xFFF0707F#32 0x69805013#32 ∧
  WordsUnspecified .rv32 0xFFF0707F#32 0x6B805013#32 ∧
  ∀ (rd rs1 : Reg) (s : State),
    (s.xlen = .rv32 →
      ∃ v, Completes (.rev8Rv32 rd rs1) s v ∧ ∀ k, k < 4 → byteOf v k = byteOf (s.regNat rs1) (3 - k)) ∧
    (s.xlen = .rv64 →
      ∃ v, Completes (.rev8Rv64 rd rs1) s v ∧ ∀ k, k < 8 → byteOf v k = byteOf (s.regNat rs1) (7 - k))

/-- R100, R101, R102: `clmul`, `clmulh` and `clmulr` write bits XLEN-1 to 0, 2·XLEN-1 to XLEN and 2·XLEN-2 to XLEN-1
of the carry-less product of `rs1` and `rs2`, bit k of which is the exclusive OR over i + j = k of `a[j] & b[i]`. -/
def Obligations.CarrylessMultipliesSliceTheProduct : Prop :=
  (∀ x, WordsMean x 0xFE00707F#32 0x0A001033#32 (asR .clmul)) ∧
  (∀ x, WordsMean x 0xFE00707F#32 0x0A003033#32 (asR .clmulh)) ∧
  (∀ x, WordsMean x 0xFE00707F#32 0x0A002033#32 (asR .clmulr)) ∧
  ∀ (rd rs1 rs2 : Reg) (s : State),
    (∃ v, Completes (.clmul rd rs1 rs2) s v ∧
      ∀ k, k < s.xlen.bits → v.testBit k = productBit (s.regNat rs1) (s.regNat rs2) k) ∧
    (∃ v, Completes (.clmulh rd rs1 rs2) s v ∧
      ∀ k, k < s.xlen.bits → v.testBit k = productBit (s.regNat rs1) (s.regNat rs2) (k + s.xlen.bits)) ∧
    (∃ v, Completes (.clmulr rd rs1 rs2) s v ∧
      ∀ k, k < s.xlen.bits → v.testBit k = productBit (s.regNat rs1) (s.regNat rs2) (k + s.xlen.bits - 1))

/-- R105, R109, R111: `bclr`, `binv` and `bset` clear, invert and set the one bit of `rs1` whose index is `rs2` modulo
XLEN. -/
def Obligations.SingleBitsByRegister : Prop :=
  (∀ x, WordsMean x 0xFE00707F#32 0x48001033#32 (asR .bclr)) ∧
  (∀ x, WordsMean x 0xFE00707F#32 0x68001033#32 (asR .binv)) ∧
  (∀ x, WordsMean x 0xFE00707F#32 0x28001033#32 (asR .bset)) ∧
  ∀ (rd rs1 rs2 : Reg) (s : State),
    (∃ v, Completes (.bclr rd rs1 rs2) s v ∧
      ClearsBit s.xlen.bits (s.regNat rs1) (s.regNat rs2 % s.xlen.bits) v) ∧
    (∃ v, Completes (.binv rd rs1 rs2) s v ∧
      InvertsBit s.xlen.bits (s.regNat rs1) (s.regNat rs2 % s.xlen.bits) v) ∧
    (∃ v, Completes (.bset rd rs1 rs2) s v ∧
      SetsBit s.xlen.bits (s.regNat rs1) (s.regNat rs2 % s.xlen.bits) v)

/-- R107: `bext` writes 1 if the bit of `rs1` whose index is `rs2` modulo XLEN is set and 0 otherwise. -/
def Obligations.BextExtractsOneBit : Prop :=
  (∀ x, WordsMean x 0xFE00707F#32 0x48005033#32 (asR .bext)) ∧
  ∀ (rd rs1 rs2 : Reg) (s : State),
    ∃ v, Completes (.bext rd rs1 rs2) s v ∧
      ExtractsBit s.xlen.bits (s.regNat rs1) (s.regNat rs2 % s.xlen.bits) v

/-- R106, R110, R112: `bclri`, `binvi` and `bseti` clear, invert and set the bit whose index is the immediate of the row
that matched; at XLEN = 32 the words with shamt[5] = 1 are rejected as reserved. -/
def Obligations.SingleBitsByImmediate : Prop :=
  ImmediateForm 0x48001013#32 0x4A001013#32 .bclriRv32 .bclriRv64 ClearsBit ∧
  ImmediateForm 0x68001013#32 0x6A001013#32 .binviRv32 .binviRv64 InvertsBit ∧
  ImmediateForm 0x28001013#32 0x2A001013#32 .bsetiRv32 .bsetiRv64 SetsBit

/-- R108: `bexti` writes the bit of `rs1` whose index is the immediate of the row that matched; at XLEN = 32 the words
with shamt[5] = 1 are rejected as reserved. -/
def Obligations.BextiExtractsOneBit : Prop :=
  ImmediateForm 0x48005013#32 0x4A005013#32 .bextiRv32 .bextiRv64 ExtractsBit

/-! ## Every instruction -/

/-- The template of R8 and the empty exception table of R120, which the spec derives from the source's 43
Implementation blocks: every instruction of the hart's width completes, in every state and with every operand, writing one
value to its destination and advancing the pc, and the value depends on nothing but its source registers, its
immediate and XLEN: in two states that agree on these it is the same. -/
def Obligations.EveryInstructionCompletesFromItsSourcesAlone : Prop :=
  ∀ (i : Instr) (s s' : State), i.WellFormed s.xlen → s.xlen = s'.xlen →
    (∀ r, r ∈ i.sources → s.regNat r = s'.regNat r) →
    ∃ v, Completes i s v ∧ Completes i s' v

/-- The meaning of an instruction and the meaning of its word agree at both widths, also at the width that its row does
not list (the model's reading, log 9): there the word is refused, or is the other row of the same mnemonic. -/
def Obligations.ExecAgreesWithTheInstructionsWord : Prop :=
  ∀ (i : Instr) (s : State), exec i s = executeWord (encode i) s

/-- The model's reading of rows on a hart of the other width (log 9), instruction by instruction: the eleven `w` and
`.uw` instructions and the rows of `zext.h` and `rev8` are refused as unspecified words; the RV64 rows with an immediate
are refused as reserved at XLEN = 32 when shamt[5] = 1, and otherwise the two rows of a mnemonic do the same. -/
def Obligations.OtherWidthRowsDoWhatTheirWordDoes : Prop :=
  ∀ (rd rs1 rs2 : Reg) (shamt : BitVec 6) (s : State),
    (s.xlen = .rv32 →
      (∀ i, i ∈ [Instr.addUw rd rs1 rs2, .sh1addUw rd rs1 rs2, .sh2addUw rd rs1 rs2, .sh3addUw rd rs1 rs2,
          .slliUw rd rs1 shamt, .clzw rd rs1, .ctzw rd rs1, .cpopw rd rs1, .rolw rd rs1 rs2,
          .roriw rd rs1 (shamt.setWidth 5), .rorw rd rs1 rs2, .zextHRv64 rd rs1, .rev8Rv64 rd rs1] →
        RefusedUnspecified i s) ∧
      (32 ≤ shamt.toNat →
        ∀ i, i ∈ [Instr.roriRv64 rd rs1 shamt, .bclriRv64 rd rs1 shamt, .bextiRv64 rd rs1 shamt,
          .binviRv64 rd rs1 shamt, .bsetiRv64 rd rs1 shamt] → RefusedReserved i s)) ∧
    (s.xlen = .rv64 → RefusedUnspecified (.zextHRv32 rd rs1) s ∧ RefusedUnspecified (.rev8Rv32 rd rs1) s) ∧
    (shamt.toNat < 32 →
      exec (.roriRv64 rd rs1 shamt) s = exec (.roriRv32 rd rs1 (shamt.setWidth 5)) s ∧
      exec (.bclriRv64 rd rs1 shamt) s = exec (.bclriRv32 rd rs1 (shamt.setWidth 5)) s ∧
      exec (.bextiRv64 rd rs1 shamt) s = exec (.bextiRv32 rd rs1 (shamt.setWidth 5)) s ∧
      exec (.binviRv64 rd rs1 shamt) s = exec (.binviRv32 rd rs1 (shamt.setWidth 5)) s ∧
      exec (.bsetiRv64 rd rs1 shamt) s = exec (.bsetiRv32 rd rs1 (shamt.setWidth 5)) s)

/-- R11, R12: `x0` reads 0; a written register reads as written; every other register reads as before; a write to `x0`
is discarded, so an instruction with `rd` = 0 only advances the pc. -/
def Obligations.RegisterZeroIsHardwired : Prop :=
  (∀ (x : Xlen) (h : Hart x) (r : Reg) (v : XWord x),
    h.reg 0#5 = 0#x.bits ∧ h.setReg 0#5 v = h ∧ (r ≠ 0#5 → (h.setReg r v).reg r = v) ∧
    ∀ r', r' ≠ r → (h.setReg r v).reg r' = h.reg r') ∧
  ∀ (i : Instr) (s : State), i.WellFormed s.xlen → i.dest = 0#5 →
    exec i s = .next { s with hart := { s.hart with pc := s.hart.pc + 4 } }

/-- The register overlaps that R136 lists, in one register `r` that is not `x0`. -/
def Obligations.OverlappingRegistersUseOldValues : Prop :=
  ∀ (r : Reg) (s : State), r ≠ 0#5 →
    Completes (.andn r r r) s 0 ∧
    Completes (.xnor r r r) s (2 ^ s.xlen.bits - 1) ∧
    Completes (.sh1add r r r) s (3 * s.regNat r % 2 ^ s.xlen.bits) ∧
    (∃ v, Completes (.rol r r r) s v ∧
      IsRotatedLeft s.xlen.bits (s.regNat r) (s.regNat r % s.xlen.bits) v) ∧
    Completes (.bset r 0#5 r) s (2 ^ (s.regNat r % s.xlen.bits))

/-! ## Encoding -/

/-- Decoding the word of an instruction of the hart's width gives the instruction back, for every operand. -/
def Obligations.DecodeOfEncodeIsTheInstruction : Prop :=
  ∀ (x : Xlen) (i : Instr), i.WellFormed x → decodeWord x (encode i) = .ok i

/-- A word that decodes is the word of the instruction it decodes to, and that instruction is one of the hart's width. -/
def Obligations.EncodeOfDecodeIsTheWord : Prop :=
  ∀ (x : Xlen) (w : InstWord) (i : Instr), decodeWord x w = .ok i → encode i = w ∧ i.WellFormed x

/-- What the spec derives in R38 from the opcode map: two different rows that share an XLEN differ in a bit that both
masks cover, so at one XLEN a word selects at most one row. -/
def Obligations.RowsOfOneWidthAreDisjoint : Prop :=
  rows.length = 50 ∧
  ∀ (x : Xlen) (j k : Nat) (r q : Row), rows[j]? = some r → rows[k]? = some q → j ≠ k →
    r.admits x = true → q.admits x = true →
    (r.pattern ^^^ q.pattern) &&& (r.mask &&& q.mask) ≠ 0#32 ∧
    ∀ w, ¬(r.selects x w = true ∧ q.selects x w = true)

/-- R44, R45: a word is rejected as reserved exactly when XLEN is 32 and it is one of the five listed kinds, and as
unspecified exactly when it matches no row of its width and is not reserved; the step that fetches it is refused with
that reason. -/
def Obligations.RejectedWordsAreRefusedByName : Prop :=
  ∀ (x : Xlen) (w : InstWord),
    (decodeWord x w = .error .reservedEncoding ↔ IsReservedWord x w) ∧
    (decodeWord x w = .error .unspecifiedWord ↔
      (∀ r, r ∈ rows → r.selects x w = false) ∧ ¬IsReservedWord x w) ∧
    ∀ s : State, s.mark = .clear → s.xlen = x → s.fetch = some w →
      (IsReservedWord x w → step s = .refused .reservedEncoding) ∧
      ((∀ r, r ∈ rows → r.selects x w = false) → ¬IsReservedWord x w → step s = .refused .unspecifiedWord)

/-- R31: in every encoding inst[6:0] is the major opcode, one of the four of R32, inst[11:7] is rd, inst[14:12] is a
function code that the mnemonic alone fixes, and inst[19:15] is rs1. -/
def Obligations.CommonFieldPositions : Prop :=
  ∀ i : Instr,
    (encode i).extractLsb' 0 7 ∈ [0x33#7, 0x3b#7, 0x13#7, 0x1b#7] ∧
    (encode i).extractLsb' 7 5 = i.dest ∧
    i.sources.head? = some ((encode i).extractLsb' 15 5) ∧
    ∀ j : Instr, j.mnemonic = i.mnemonic → (encode j).extractLsb' 12 3 = (encode i).extractLsb' 12 3

/-- R41: `roriw` has a 5-bit shift amount at XLEN = 64; a word with its opcode and funct3, inst[31:26] = 0x18 and
inst[25] = 1 matches no row and is unspecified, at either width. -/
def Obligations.RoriwHasNoSixthShiftBit : Prop :=
  (∀ w : InstWord, w.extractLsb' 0 7 = 0x1b#7 → w.extractLsb' 12 3 = 5#3 → w.extractLsb' 25 7 = 0x30#7 →
    decodeWord .rv64 w = .ok (asI5 .roriw w) ∧ decodeWord .rv32 w = .error .unspecifiedWord) ∧
  ∀ (x : Xlen) (w : InstWord),
    w.extractLsb' 0 7 = 0x1b#7 → w.extractLsb' 12 3 = 5#3 → w.extractLsb' 26 6 = 0x18#6 →
    w.getLsbD 25 = true → decodeWord x w = .error .unspecifiedWord

/-- R43: the eleven `w` and `.uw` mnemonics, and the RV64 rows of the seven mnemonics with two encodings, exist only at
XLEN = 64; at XLEN = 32 every word of the eleven is an unspecified word. Of the two rows of each of the seven, exactly one
exists at each width. -/
def Obligations.WordFormsExistOnlyAt64 : Prop :=
  (∀ i : Instr,
    (i.mnemonic ∈ ["add.uw", "sh1add.uw", "sh2add.uw", "sh3add.uw", "slli.uw", "clzw", "ctzw", "cpopw", "rolw",
        "roriw", "rorw"] →
      i.validAt .rv64 = true ∧ i.validAt .rv32 = false ∧ decodeWord .rv64 (encode i) = .ok i) ∧
    (i.mnemonic ∈ ["zext.h", "rev8", "rori", "bclri", "bexti", "binvi", "bseti"] →
      i.validAt .rv32 = !i.validAt .rv64)) ∧
  (∀ (rd rs1 : Reg) (shamt : BitVec 6) (i : Instr),
    i ∈ [Instr.zextHRv64 rd rs1, .rev8Rv64 rd rs1, .roriRv64 rd rs1 shamt, .bclriRv64 rd rs1 shamt,
        .bextiRv64 rd rs1 shamt, .binviRv64 rd rs1 shamt, .bsetiRv64 rd rs1 shamt] →
      i.validAt .rv64 = true ∧ i.validAt .rv32 = false ∧ decodeWord .rv64 (encode i) = .ok i) ∧
  ∀ (w : InstWord) (i : Instr), decodeWord .rv64 w = .ok i →
    i.mnemonic ∈ ["add.uw", "sh1add.uw", "sh2add.uw", "sh3add.uw", "slli.uw", "clzw", "ctzw", "cpopw", "rolw",
        "roriw", "rorw"] → decodeWord .rv32 w = .error .unspecifiedWord

/-- Some words of the spec's own decode vectors (spec/95_test_vectors.md section 3). -/
def Obligations.DecodeVectorsOfTheSpec : Prop :=
  decodeBytes .rv64 0x3B#8 0x85#8 0xC5#8 0x08#8 = .ok (.addUw 10#5 11#5 12#5) ∧
  decodeBytes .rv32 0x33#8 0xC5#8 0x05#8 0x08#8 = .ok (.zextHRv32 10#5 11#5) ∧
  decodeBytes .rv64 0x13#8 0xD5#8 0xF5#8 0x63#8 = .ok (.roriRv64 10#5 11#5 63#6) ∧
  decodeBytes .rv32 0x13#8 0xD5#8 0xF5#8 0x63#8 = .error .reservedEncoding ∧
  decodeBytes .rv32 0xB3#8 0xFF#8 0xFF#8 0x0B#8 = .ok (.maxu 31#5 31#5 31#5) ∧
  decodeBytes .rv64 0x1B#8 0xD5#8 0x05#8 0x62#8 = .error .unspecifiedWord

/-! ## Fetch, step and run -/

/-- A step runs the decoded instruction: with a clear mark, the step of a state whose fetched word decodes to `i` is
`exec i`, with nothing around it. -/
def Obligations.StepRunsTheDecodedInstruction : Prop :=
  ∀ (s : State) (w : InstWord) (i : Instr), s.mark = .clear → s.fetch = some w →
    decodeWord s.xlen w = .ok i → step s = exec i s

/-- R21, R22: the fetched word is formed from the four bytes at pc + k modulo 2^XLEN, k from 0 to 3, the byte at the
lowest address in the lowest bits; a step is stuck exactly when one of the four addresses holds no memory. -/
def Obligations.FetchIsLittleEndianOrStuck : Prop :=
  ∀ s : State,
    (∀ w, s.fetch = some w ↔
      ∀ k, k < 4 → s.mem.read ((s.pcNat + k) % 2 ^ s.xlen.bits) = some (w.extractLsb' (8 * k) 8)) ∧
    (s.mark = .clear → (step s = .fault .stuckFetch ↔
      ∃ k, k < 4 ∧ s.mem.read ((s.pcNat + k) % 2 ^ s.xlen.bits) = none))

/-- The four outcomes of R122: stuck if a byte is missing; else executed, by the matched row's instruction, if a row of
the hart's width matches; else refused as reserved or as unspecified. A step that is not executed has no next state and
changes nothing but the mark. How the mark is kept is the model's reading of R122 (log 7): a state that carries a mark
answers no next state again, and `advance` leaves it as it is. -/
def Obligations.StepHasExactlyTheFourOutcomes : Prop :=
  (∀ s : State, s.mark = .clear →
    (s.fetch = none → step s = .fault .stuckFetch ∧ advance s = { s with mark := .stuckFetch }) ∧
    ∀ w, s.fetch = some w →
      (∀ r, r ∈ rows → r.selects s.xlen w = true →
        ∃ t v, step s = .next t ∧ exec (r.build w) s = .next t ∧ Writes s t (r.build w).dest v) ∧
      ((∀ r, r ∈ rows → r.selects s.xlen w = false) →
        (IsReservedWord s.xlen w →
          step s = .refused .reservedEncoding ∧ advance s = { s with mark := .reservedEncoding }) ∧
        (¬IsReservedWord s.xlen w →
          step s = .refused .unspecifiedWord ∧ advance s = { s with mark := .unspecifiedWord }))) ∧
  ∀ s : State, s.mark ≠ .clear → advance s = s ∧ ∀ t, step s ≠ .next t

/-- R15: an executed step moves the pc on by 4 modulo 2^XLEN, from 2^XLEN - 4 to 0. -/
def Obligations.PcAdvancesByFourAndWraps : Prop :=
  ∀ s t : State, step s = .next t →
    t.pcNat = (s.pcNat + 4) % 2 ^ s.xlen.bits ∧ (s.pcNat = 2 ^ s.xlen.bits - 4 → t.pcNat = 0)

/-- Every step keeps the invariant of the hart: memory in canonical form within the address space, pc a multiple of 4;
and it changes neither XLEN nor memory nor the mark. -/
def Obligations.StepKeepsWellFormedness : Prop :=
  ∀ s t : State, s.WF → step s = .next t →
    t.WF ∧ t.xlen = s.xlen ∧ t.mem = s.mem ∧ t.mark = s.mark

/-- What the spec derives in R14 from R15 and R132: along every run from a start state the pc is a multiple of 4. -/
def Obligations.PcStaysAMultipleOfFour : Prop :=
  ∀ (n : Nat) (s t : State), s.IsStart → runFor n s = .next t → t.pcNat % 4 = 0

/-- R20: memory is the argument of the start state and is constant during a run, whether its steps execute or not. -/
def Obligations.MemoryIsConstantDuringARun : Prop :=
  (∀ (x : Xlen) (m : Memory) (regs : Vector (XWord x) 31) (pc0 : XWord x) (n : Nat),
    (observe n (State.start x m regs pc0)).mem = m) ∧
  ∀ (n : Nat) (s : State), (observe n s).mem = s.mem

/-- R129 (a): after n executed steps the pc is pc0 + 4n modulo 2^XLEN and memory is unchanged. -/
def Obligations.BoundedRunAdvancesPc : Prop :=
  ∀ (n : Nat) (s t : State), runFor n s = .next t →
    t.pcNat = (s.pcNat + 4 * n) % 2 ^ s.xlen.bits ∧ t.xlen = s.xlen ∧ t.mem = s.mem ∧ t.mark = s.mark

/-- The run is straight-line, as the spec derives in R126: n steps are safe exactly when each of the n words at pc,
pc + 4, pc + 8, … lies in memory and is an instruction of the hart's width, whatever the registers hold. -/
def Obligations.SafeRunsAreStraightLine : Prop :=
  ∀ (n : Nat) (s : State), s.mark = .clear → (SafeFor n s ↔ ∀ k, k < n → InstructionAt s k)

/-- The end of a run by R129 (b) and R122: a run that stops does so after some executed steps, in the state they leave.
That the state then holds the reason as its mark, and that a marked run stays as it is, is the model's reading of R122
(log 7). -/
def Obligations.StoppedRunKeepsItsMark : Prop :=
  (∀ (n : Nat) (s : State), s.mark ≠ .clear → observe n s = s ∧ ¬SafeFor (n + 1) s) ∧
  ∀ (n : Nat) (s : State), s.mark = .clear →
    (∀ t, runFor n s = .next t → observe n s = t ∧ t.mark = .clear) ∧
    (∀ r, runFor n s = .fault r → ∃ m t, m < n ∧ runFor m s = .next t ∧ step t = .fault r ∧
      observe n s = { t with mark := r.mark } ∧ r.mark ≠ .clear) ∧
    (∀ r, runFor n s = .refused r → ∃ m t, m < n ∧ runFor m s = .next t ∧ step t = .refused r ∧
      observe n s = { t with mark := r.mark } ∧ r.mark ≠ .clear)

/-! ## Start states -/

/-- R133: the start state is the tuple (XLEN, mem, regs, pc0): it holds the four arguments, x0 reads 0 and the mark is
clear; it is a start state of the machine when the memory is canonical and within the address space and pc0 is a
multiple of 4; and nothing else is state, so every state with a clear mark is made of such a tuple. -/
def Obligations.StartStateHoldsItsArguments : Prop :=
  ∀ (x : Xlen) (m : Memory) (regs : Vector (XWord x) 31) (pc0 : XWord x),
    (State.start x m regs pc0).xlen = x ∧
    (State.start x m regs pc0).pcNat = pc0.toNat ∧
    (∀ a, (State.start x m regs pc0).mem.read a = m.read a) ∧
    (State.start x m regs pc0).regNat 0#5 = 0 ∧
    (∀ k : Fin 31, (State.start x m regs pc0).regNat (BitVec.ofNat 5 (k.val + 1)) = (regs[k]).toNat) ∧
    (State.start x m regs pc0).mark = .clear ∧
    (m.wf → (∀ c, c ∈ m → c.1 < 2 ^ x.bits) → pc0.toNat % 4 = 0 → (State.start x m regs pc0).IsStart) ∧
    ∀ s : State, s.mark = .clear → s = State.start s.xlen s.mem s.hart.x s.hart.pc

/-- The reset state is a start state (with the values the model chose: log 2, 3, 4, 5). -/
def Obligations.ResetIsAStartState : Prop := State.reset.IsStart

/-- What reset leaves: x0 is 0 and the mark clear by the spec; XLEN 64, every other register 0, pc 0 and no memory by
the model's choice (log 2, 3, 4, 5). -/
def Obligations.ResetValues : Prop :=
  State.reset.mark = .clear ∧ State.reset.xlen = .rv64 ∧ State.reset.pcNat = 0 ∧
  (∀ r : Reg, State.reset.regNat r = 0) ∧ ∀ a, State.reset.mem.read a = none

/-- Placing a word puts it where the next step fetches it, changes no byte elsewhere, and keeps the state well
formed (R134, R22). -/
def Obligations.PlacedWordIsFetched : Prop :=
  ∀ (s : State) (w : InstWord),
    (s.loadWord w).fetch = some w ∧
    (∀ a, (∀ k, k < 4 → a ≠ (s.pcNat + k) % 2 ^ s.xlen.bits) → (s.loadWord w).mem.read a = s.mem.read a) ∧
    (s.WF → (s.loadWord w).WF)

/-- An instruction placed by withFetchWord is the one the very next step runs, from any state (log 6, log 10). -/
def Obligations.PlacedInstructionIsRunNext : Prop :=
  ∀ (s : State) (nbits w : Nat) (i : Instr), decodeTableWord nbits w = some i →
    step (s.withFetchWord nbits w) = exec i (s.withFetchWord nbits w)

/-! ## Relations the spec gives for checking a model -/

/-- The three slices of the carry-less product are what the source's own loops compute (R100, R101, R102, "Written as
the source writes it"). -/
def Obligations.CarrylessSlicesEqualTheSourcesLoops : Prop :=
  ∀ (n : Nat) (a b : BitVec n), 0 < n →
    carrylessLow a b = xorLoop b (fun i => a <<< i) 0 n ∧
    carrylessHigh a b = xorLoop b (fun i => a >>> (n - i)) 1 (n - 1) ∧
    carrylessReversed a b = xorLoop b (fun i => a >>> (n - i - 1)) 0 n

/-- The Note on `clmulr`: it is `clmul` of the bit-reversed inputs, bit-reversed. -/
def Obligations.ClmulrIsReversedClmulOfReversed : Prop :=
  ∀ (n : Nat) (a b : BitVec n), 0 < n →
    carrylessReversed a b = (carrylessLow a.reverse b.reverse).reverse

/-- The carry-less product is symmetric, and its bit 2·XLEN-1 is always 0, so bit XLEN-1 of `clmulh` is 0. -/
def Obligations.CarrylessProductIsSymmetric : Prop :=
  ∀ (n : Nat) (a b : BitVec n), 0 < n →
    carrylessProduct a b = carrylessProduct b a ∧ (carrylessProduct a b).getLsbD (2 * n - 1) = false ∧
    (carrylessHigh a b).getLsbD (n - 1) = false

/-- A left rotate by s is a right rotate by (N - s) mod N, and a rotate preserves the number of 1 bits
(spec/45_rotate.md, introduction). -/
def Obligations.LeftRotateIsRightRotate : Prop :=
  ∀ (n : Nat) (v : BitVec n) (s : Nat), s < n →
    rotateLeft v s = rotateRight v ((n - s) % n) ∧ countOnes (rotateLeft v s) = countOnes v

/-- The counting identities of spec/42_count_bits.md: pop(v) + pop(~v) = N, and ctz(v) = pop((v & -v) - 1) for v ≠ 0,
and clz(v) = N - 1 - floor(log2 v) for v ≠ 0. -/
def Obligations.CountingIdentities : Prop :=
  ∀ (n : Nat) (v : BitVec n),
    countOnes v + countOnes (~~~v) = n ∧
    (v ≠ 0#n → countTrailingZeros v = countOnes ((v &&& -v) - 1#n) ∧
      countLeadingZeros v = n - 1 - Nat.log2 v.toNat)

/-- Byte reversal undoes itself, and OR-combining bytes twice is combining once, at both widths
(spec/46_byte_ops.md). -/
def Obligations.ByteOperationsTwice : Prop :=
  ∀ (x : Xlen) (v : XWord x),
    reverseBytes (reverseBytes v) = v ∧ orCombine (orCombine v) = orCombine v

/-- The identities of spec/48_single_bit.md for one index: bset then bext gives 1, bclr then bext gives 0, binv equals
bset or bclr by what bext gives, and binv undoes itself. -/
def Obligations.SingleBitIdentities : Prop :=
  ∀ (n : Nat) (v : BitVec n) (k : Nat), k < n →
    extractBit (setBit v k) k = 1#n ∧ extractBit (clearBit v k) k = 0#n ∧
    (extractBit v k = 0#n → invertBit v k = setBit v k) ∧
    (extractBit v k = 1#n → invertBit v k = clearBit v k) ∧
    invertBit (invertBit v k) k = v
end

