-- ==== Sys2Proof/Laws/Decode.lean ====
section
/-! SUPPORT. The encoder format by format: its 32 bits, the mask keeps the fixed fields, and each operand field is
read back. -/

namespace Sys2Proof

/-- Two words are equal when their 32 bits are. -/
theorem word_ext {v w : InstWord} (h : ∀ k < 32, v.getLsbD k = w.getLsbD k) : v = w :=
  BitVec.eq_of_getLsbD_eq fun k hk => h k hk

section FormatR
variable (f7 : BitVec 7) (f3 : BitVec 3) (op : BitVec 7) (rd rs1 rs2 : Reg)

/-- The bits of format R, field by field from bit 0. -/
theorem getLsbD_encodeR (k : Nat) : (encodeR f7 f3 op rd rs1 rs2).getLsbD k =
    if k < 7 then op.getLsbD k else if k < 12 then rd.getLsbD (k - 7) else if k < 15 then f3.getLsbD (k - 12)
    else if k < 20 then rs1.getLsbD (k - 15) else if k < 25 then rs2.getLsbD (k - 20) else f7.getLsbD (k - 25) := by
  unfold encodeR
  simp only [BitVec.getLsbD_append]
  grind

theorem encodeR_mask : encodeR f7 f3 op rd rs1 rs2 &&& maskR = encodeR f7 f3 op 0#5 0#5 0#5 := by
  refine word_ext fun k hk => ?_
  rw [BitVec.getLsbD_and, getLsbD_encodeR, getLsbD_encodeR]
  interval_cases k <;> simp [maskR]

@[simp] theorem rdOf_encodeR : rdOf (encodeR f7 f3 op rd rs1 rs2) = rd := by
  refine BitVec.eq_of_getLsbD_eq fun k hk => ?_
  rw [rdOf, BitVec.getLsbD_extractLsb', getLsbD_encodeR]
  interval_cases k <;> simp

@[simp] theorem rs1Of_encodeR : rs1Of (encodeR f7 f3 op rd rs1 rs2) = rs1 := by
  refine BitVec.eq_of_getLsbD_eq fun k hk => ?_
  rw [rs1Of, BitVec.getLsbD_extractLsb', getLsbD_encodeR]
  interval_cases k <;> simp

@[simp] theorem rs2Of_encodeR : rs2Of (encodeR f7 f3 op rd rs1 rs2) = rs2 := by
  refine BitVec.eq_of_getLsbD_eq fun k hk => ?_
  rw [rs2Of, BitVec.getLsbD_extractLsb', getLsbD_encodeR]
  interval_cases k <;> simp

end FormatR

section FormatU
variable (f12 : BitVec 12) (f3 : BitVec 3) (op : BitVec 7) (rd rs1 : Reg)

/-- The bits of format U, field by field from bit 0. -/
theorem getLsbD_encodeU (k : Nat) : (encodeU f12 f3 op rd rs1).getLsbD k =
    if k < 7 then op.getLsbD k else if k < 12 then rd.getLsbD (k - 7) else if k < 15 then f3.getLsbD (k - 12)
    else if k < 20 then rs1.getLsbD (k - 15) else f12.getLsbD (k - 20) := by
  unfold encodeU
  simp only [BitVec.getLsbD_append]
  grind

theorem encodeU_mask : encodeU f12 f3 op rd rs1 &&& maskU = encodeU f12 f3 op 0#5 0#5 := by
  refine word_ext fun k hk => ?_
  rw [BitVec.getLsbD_and, getLsbD_encodeU, getLsbD_encodeU]
  interval_cases k <;> simp [maskU]

@[simp] theorem rdOf_encodeU : rdOf (encodeU f12 f3 op rd rs1) = rd := by
  refine BitVec.eq_of_getLsbD_eq fun k hk => ?_
  rw [rdOf, BitVec.getLsbD_extractLsb', getLsbD_encodeU]
  interval_cases k <;> simp

@[simp] theorem rs1Of_encodeU : rs1Of (encodeU f12 f3 op rd rs1) = rs1 := by
  refine BitVec.eq_of_getLsbD_eq fun k hk => ?_
  rw [rs1Of, BitVec.getLsbD_extractLsb', getLsbD_encodeU]
  interval_cases k <;> simp

end FormatU

section FormatI5
variable (f7 : BitVec 7) (f3 : BitVec 3) (op : BitVec 7) (rd rs1 : Reg) (shamt : BitVec 5)

/-- Format I5 has format R's layout with the amount in the place of `rs2` (R33, R35). -/
theorem encodeI5_eq_encodeR : encodeI5 f7 f3 op rd rs1 shamt = encodeR f7 f3 op rd rs1 shamt := rfl

theorem encodeI5_mask : encodeI5 f7 f3 op rd rs1 shamt &&& maskR = encodeI5 f7 f3 op 0#5 0#5 0#5 :=
  encodeR_mask f7 f3 op rd rs1 shamt

@[simp] theorem rdOf_encodeI5 : rdOf (encodeI5 f7 f3 op rd rs1 shamt) = rd := rdOf_encodeR ..
@[simp] theorem rs1Of_encodeI5 : rs1Of (encodeI5 f7 f3 op rd rs1 shamt) = rs1 := rs1Of_encodeR ..
@[simp] theorem shamt5Of_encodeI5 : shamt5Of (encodeI5 f7 f3 op rd rs1 shamt) = shamt := rs2Of_encodeR ..

end FormatI5

section FormatI6
variable (f6 : BitVec 6) (f3 : BitVec 3) (op : BitVec 7) (rd rs1 : Reg) (shamt : BitVec 6)

/-- The bits of format I6, field by field from bit 0. -/
theorem getLsbD_encodeI6 (k : Nat) : (encodeI6 f6 f3 op rd rs1 shamt).getLsbD k =
    if k < 7 then op.getLsbD k else if k < 12 then rd.getLsbD (k - 7) else if k < 15 then f3.getLsbD (k - 12)
    else if k < 20 then rs1.getLsbD (k - 15) else if k < 26 then shamt.getLsbD (k - 20) else f6.getLsbD (k - 26) := by
  unfold encodeI6
  simp only [BitVec.getLsbD_append]
  grind

theorem encodeI6_mask : encodeI6 f6 f3 op rd rs1 shamt &&& maskI6 = encodeI6 f6 f3 op 0#5 0#5 0#6 := by
  refine word_ext fun k hk => ?_
  rw [BitVec.getLsbD_and, getLsbD_encodeI6, getLsbD_encodeI6]
  interval_cases k <;> simp [maskI6]

@[simp] theorem rdOf_encodeI6 : rdOf (encodeI6 f6 f3 op rd rs1 shamt) = rd := by
  refine BitVec.eq_of_getLsbD_eq fun k hk => ?_
  rw [rdOf, BitVec.getLsbD_extractLsb', getLsbD_encodeI6]
  interval_cases k <;> simp

@[simp] theorem rs1Of_encodeI6 : rs1Of (encodeI6 f6 f3 op rd rs1 shamt) = rs1 := by
  refine BitVec.eq_of_getLsbD_eq fun k hk => ?_
  rw [rs1Of, BitVec.getLsbD_extractLsb', getLsbD_encodeI6]
  interval_cases k <;> simp

@[simp] theorem shamt6Of_encodeI6 : shamt6Of (encodeI6 f6 f3 op rd rs1 shamt) = shamt := by
  refine BitVec.eq_of_getLsbD_eq fun k hk => ?_
  rw [shamt6Of, BitVec.getLsbD_extractLsb', getLsbD_encodeI6]
  interval_cases k <;> simp

end FormatI6

end Sys2Proof
end

