-- ==== Sys2Proof/Laws/State.lean ====
section
/-! SUPPORT. One lemma for each field under each update of the state, and the register file's read and write laws. -/

namespace Sys2Proof.Machine

/-! ## The hart -/

@[simp] theorem Hart.advance_x (h : Hart xl) : h.advance.x = h.x := rfl
@[simp] theorem Hart.advance_pc (h : Hart xl) : h.advance.pc = h.pc + 4 := rfl
@[simp] theorem Hart.advance_reg (h : Hart xl) (r : Reg) : h.advance.reg r = h.reg r := rfl

@[simp] theorem Hart.reg_zero (h : Hart xl) : h.reg 0#5 = 0#xl.bits := rfl
@[simp] theorem Hart.setReg_zero (h : Hart xl) (v : XWord xl) : h.setReg 0#5 v = h := rfl

@[simp] theorem Hart.setReg_pc (h : Hart xl) (r : Reg) (v : XWord xl) : (h.setReg r v).pc = h.pc := by
  unfold Hart.setReg; split <;> rfl

/-- Reading the register that was written. -/
theorem Hart.reg_setReg_same (h : Hart xl) {r : Reg} (v : XWord xl) (hr : r ≠ 0#5) : (h.setReg r v).reg r = v := by
  simp [Hart.reg, Hart.setReg, hr]

/-- Two register numbers that are not 0 and differ have different places in the register file. -/
theorem Reg.index_ne {r r' : Reg} (h0 : r ≠ 0#5) (h0' : r' ≠ 0#5) (h : r' ≠ r) : r.toNat - 1 ≠ r'.toNat - 1 := by
  have a : r.toNat ≠ 0 := fun e => h0 (BitVec.eq_of_toNat_eq (by simpa using e))
  have b : r'.toNat ≠ 0 := fun e => h0' (BitVec.eq_of_toNat_eq (by simpa using e))
  have c : r'.toNat ≠ r.toNat := fun e => h (BitVec.eq_of_toNat_eq e)
  omega

/-- A register that was not written reads as before. -/
theorem Hart.reg_setReg_other (h : Hart xl) {r r' : Reg} (v : XWord xl) (hne : r' ≠ r) :
    (h.setReg r v).reg r' = h.reg r' := by
  by_cases h0 : r = 0#5
  · simp [Hart.setReg, h0]
  · by_cases h0' : r' = 0#5
    · subst h0'; simp
    · simp [Hart.reg, Hart.setReg, h0, h0', Reg.index_ne h0 h0' hne]

/-! ## The state -/

@[simp] theorem State.start_xlen (m : Memory) (rs : Vector (XWord xl) 31) (p : XWord xl) :
    (State.start xl m rs p).xlen = xl := rfl
@[simp] theorem State.start_hart (m : Memory) (rs : Vector (XWord xl) 31) (p : XWord xl) :
    (State.start xl m rs p).hart = ⟨rs, p⟩ := rfl
@[simp] theorem State.start_mem (m : Memory) (rs : Vector (XWord xl) 31) (p : XWord xl) :
    (State.start xl m rs p).mem = m := rfl
@[simp] theorem State.start_mark (m : Memory) (rs : Vector (XWord xl) 31) (p : XWord xl) :
    (State.start xl m rs p).mark = .clear := rfl

@[simp] theorem State.retire_xlen (s : State) (rd : Reg) (v : XWord s.xlen) : (s.retire rd v).xlen = s.xlen := rfl
@[simp] theorem State.retire_mem (s : State) (rd : Reg) (v : XWord s.xlen) : (s.retire rd v).mem = s.mem := rfl
@[simp] theorem State.retire_mark (s : State) (rd : Reg) (v : XWord s.xlen) : (s.retire rd v).mark = s.mark := rfl
@[simp] theorem State.retire_hart (s : State) (rd : Reg) (v : XWord s.xlen) :
    (s.retire rd v).hart = (s.hart.setReg rd v).advance := rfl

@[simp] theorem State.loadWordAt_xlen (s : State) (n : Nat) (w : InstWord) : (s.loadWordAt n w).xlen = s.xlen := rfl
@[simp] theorem State.loadWordAt_hart (s : State) (n : Nat) (w : InstWord) : (s.loadWordAt n w).hart = s.hart := rfl
@[simp] theorem State.loadWordAt_mark (s : State) (n : Nat) (w : InstWord) : (s.loadWordAt n w).mark = s.mark := rfl

@[simp] theorem State.atXlen_mark (s : State) (x : Xlen) : (s.atXlen x).mark = s.mark := by
  unfold State.atXlen; split <;> rfl
@[simp] theorem State.atXlen_xlen (s : State) (x : Xlen) : (s.atXlen x).xlen = x := by
  unfold State.atXlen; split <;> simp_all

end Sys2Proof.Machine
end

