-- ==== Sys2Proof/Laws/Ops.lean ====
section
/-! SUPPORT. One lemma for each shared operation that says everything it can do. -/

namespace Sys2Proof.Machine

/-! ## Retiring an instruction -/

/-- Retiring writes `rd`, advances the `pc`, and leaves the rest: the frame of every instruction. -/
theorem State.retire_writes (s : State) (rd : Reg) (v : XWord s.xlen) : Writes s (s.retire rd v) rd v.toNat where
  fits := v.isLt
  xlen := rfl
  mark := rfl
  memory _ := rfl
  pc := by
    have h4 : (4 : XWord s.xlen).toNat = 4 := by cases s.xlen <;> rfl
    show ((s.hart.setReg rd v).pc + 4).toNat = _
    rw [Hart.setReg_pc, BitVec.toNat_add, h4]
    rfl
  dest h := congrArg BitVec.toNat (Hart.reg_setReg_same s.hart v h)
  others r h := congrArg BitVec.toNat (Hart.reg_setReg_other s.hart v h)
  zero := rfl

/-- An instruction whose meaning retires a value completes with that value. -/
theorem Completes.of_retire {i : Instr} {s : State} {v : XWord s.xlen}
    (h : exec i s = .next (s.retire i.dest v)) : Completes i s v.toNat :=
  ⟨_, h, s.retire_writes _ v⟩

/-! ## Guards on XLEN -/

@[simp] theorem State.onlyOn_same {s : State} {x : Xlen} (h : s.xlen = x) (out : Out) : s.onlyOn x out = out := if_pos h

@[simp] theorem State.onlyOn_other {s : State} {x : Xlen} (h : s.xlen ≠ x) (out : Out) :
    s.onlyOn x out = .refused .unspecifiedWord := if_neg h

/-- All `onlyOn` can do when it answers a next state. -/
theorem State.onlyOn_next {s t : State} {x : Xlen} {out : Out} (h : s.onlyOn x out = .next t) :
    s.xlen = x ∧ out = .next t := by
  unfold State.onlyOn at h
  split at h
  · exact ⟨‹_›, h⟩
  · cases h

/-- All `unlessReserved` can do when it answers a next state. -/
theorem State.unlessReserved_next {s t : State} {shamt : BitVec 6} {out : Out}
    (h : s.unlessReserved shamt out = .next t) :
    ¬(s.xlen = .rv32 ∧ shamt.getLsbD 5 = true) ∧ out = .next t := by
  unfold State.unlessReserved at h
  split at h
  · cases h
  · exact ⟨‹_›, h⟩

/-! ## Memory -/

/-- A read after a write: the written byte at its address, every other address as before. -/
theorem Memory.read_write (m : Memory) (k a : Nat) (b : Byte) :
    (m.write k b).read a = if a = k then some b else m.read a := by
  induction m with
  | nil => simp [Memory.write, Memory.read, eq_comm]
  | cons c m ih =>
    obtain ⟨x, d⟩ := c
    simp only [Memory.write]
    split
    · simp [Memory.read, eq_comm]
    · split
      · subst x; simp only [Memory.read, eq_comm]; split <;> rfl
      · simp only [Memory.read, ih]; split <;> rename_i hx
        · subst hx; simp_all [eq_comm]
        · rfl

/-- The entries after a write: the new one and old ones. -/
theorem Memory.mem_write {m : Memory} {k : Nat} {b : Byte} {c : Host.Cell} (h : c ∈ m.write k b) :
    c = (k, b) ∨ c ∈ m := by
  induction m with
  | nil => simpa [Memory.write] using h
  | cons d m ih =>
    obtain ⟨x, e⟩ := d
    simp only [Memory.write] at h
    split at h
    · simpa using h
    · split at h
      · rcases List.mem_cons.1 h with h | h
        · exact .inl h
        · exact .inr (List.mem_cons_of_mem _ h)
      · rcases List.mem_cons.1 h with h | h
        · exact .inr (h ▸ List.mem_cons_self ..)
        · exact (ih h).imp id (List.mem_cons_of_mem _)

/-- A write keeps the canonical form. -/
theorem Memory.write_wf {m : Memory} (h : m.wf) (k : Nat) (b : Byte) : (m.write k b).wf := by
  induction m with
  | nil => simp [Memory.write]
  | cons c m ih =>
    obtain ⟨x, d⟩ := c
    obtain ⟨hx, hm⟩ := List.pairwise_cons.1 h
    simp only [Memory.write]
    split
    · exact List.pairwise_cons.2 ⟨fun e he => by
        rcases List.mem_cons.1 he with rfl | he
        · assumption
        · have := hx e he; simp at *; omega, h⟩
    · split
      · subst x; exact List.pairwise_cons.2 ⟨hx, hm⟩
      · refine List.pairwise_cons.2 ⟨fun e he => ?_, ih hm⟩
        rcases Memory.mem_write he with rfl | he
        · simp; omega
        · exact hx e he

/-- The entries that stay when an address is taken out. -/
theorem Memory.mem_remove {m : Memory} {k : Nat} {c : Host.Cell} (h : c ∈ m.remove k) : c ∈ m := by
  induction m with
  | nil => simp [Memory.remove] at h
  | cons d m ih =>
    obtain ⟨x, e⟩ := d
    simp only [Memory.remove] at h
    split at h
    · exact List.mem_cons_of_mem _ h
    · rcases List.mem_cons.1 h with rfl | h
      · exact List.mem_cons_self ..
      · exact List.mem_cons_of_mem _ (ih h)

/-- Taking an address out keeps the canonical form. -/
theorem Memory.remove_wf {m : Memory} (h : m.wf) (k : Nat) : (m.remove k).wf := by
  induction m with
  | nil => simp [Memory.remove]
  | cons c m ih =>
    obtain ⟨x, d⟩ := c
    obtain ⟨hx, hm⟩ := List.pairwise_cons.1 h
    simp only [Memory.remove]
    split
    · exact hm
    · exact List.pairwise_cons.2 ⟨fun e he => hx e (Memory.mem_remove he), ih hm⟩

/-- An address below every listed one holds no memory. -/
theorem Memory.read_of_lt {m : Memory} {a : Nat} (h : ∀ c ∈ m, a < c.1) : m.read a = none := by
  induction m with
  | nil => rfl
  | cons c m ih =>
    obtain ⟨x, d⟩ := c
    have := h (x, d) (by simp)
    simp only [Memory.read]
    rw [if_neg (by simp at this; omega)]
    exact ih fun e he => h e (List.mem_cons_of_mem _ he)

/-- A read after taking an address out: nothing there, every other address as before. -/
theorem Memory.read_remove {m : Memory} (h : m.wf) (k a : Nat) :
    (m.remove k).read a = if a = k then none else m.read a := by
  induction m with
  | nil => simp [Memory.remove, Memory.read]
  | cons c m ih =>
    obtain ⟨x, d⟩ := c
    obtain ⟨hx, hm⟩ := List.pairwise_cons.1 h
    simp only [Memory.remove]
    split
    · subst x
      split
      · subst a; exact Memory.read_of_lt hx
      · simp only [Memory.read]; rw [if_neg (by omega)]
    · simp only [Memory.read, ih hm]
      split <;> rename_i h1
      · subst h1; simp [*]
      · rfl

/-- The cells that stay when memory is restricted keep the canonical form. -/
theorem Memory.filter_wf {m : Memory} (h : m.wf) (p : Host.Cell → Bool) : Memory.wf (m.filter p) :=
  List.Pairwise.filter p h

/-- Placing a word keeps the canonical form. -/
theorem State.loadWordAt_wf {s : State} (h : s.mem.wf) (n : Nat) (w : InstWord) : (s.loadWordAt n w).mem.wf :=
  Memory.write_wf (Memory.write_wf (Memory.write_wf (Memory.write_wf h _ _) _ _) _ _) _ _

/-- Placing words keeps the canonical form. -/
theorem State.loadWordsAt_wf {s : State} (h : s.mem.wf) (n : Nat) (ws : List InstWord) :
    (s.loadWordsAt n ws).mem.wf := by
  induction ws generalizing s n with
  | nil => exact h
  | cons w ws ih => exact ih (State.loadWordAt_wf h n w) (n + 1)

/-- Choosing the width anew keeps the canonical form. -/
theorem State.atXlen_wf {s : State} (h : s.mem.wf) (x : Xlen) : (s.atXlen x).mem.wf := by
  unfold State.atXlen; split
  · exact h
  · exact Memory.filter_wf h _

/-! ## Fetch -/

/-- All that a successful fetch says. -/
theorem State.fetch_some {s : State} {w : InstWord} (h : s.fetch = some w) :
    ∃ b0 b1 b2 b3, s.mem.read (s.fetchAddr 0) = some b0 ∧ s.mem.read (s.fetchAddr 1) = some b1 ∧
      s.mem.read (s.fetchAddr 2) = some b2 ∧ s.mem.read (s.fetchAddr 3) = some b3 ∧
      w = wordOfBytes b0 b1 b2 b3 := by
  unfold State.fetch at h
  split at h
  · cases h; exact ⟨_, _, _, _, ‹_›, ‹_›, ‹_›, ‹_›, rfl⟩
  · cases h

/-! ## Decode -/

/-- All that a successful decode says: a row of the table selects the word and makes the instruction of it. -/
theorem decodeWord_ok {x : Xlen} {w : InstWord} {i : Instr} (h : decodeWord x w = .ok i) :
    ∃ r ∈ rows, r.selects x w = true ∧ r.build w = i := by
  unfold decodeWord at h
  split at h
  · rename_i r hr
    exact ⟨r, List.mem_of_find?_eq_some hr, List.find?_some (p := fun r : Row => r.selects x w) hr, Except.ok.inj h⟩
  · split at h <;> cases h

/-! ## Execute and step -/

/-- All an instruction can do when it answers a next state: retire one value in its destination. -/
theorem exec_next {i : Instr} {s t : State} (h : exec i s = .next t) : ∃ v, t = s.retire i.dest v := by
  have fin : ∀ {rd} {v : XWord s.xlen} {t}, Host.Outcome.next (φ := Fault) (ρ := Refusal) (s.retire rd v) = .next t →
      ∃ v, t = s.retire rd v := fun h => ⟨_, (Host.Outcome.next.inj h).symm⟩
  cases i <;> first
    | exact fin h
    | exact fin (State.onlyOn_next h).2
    | exact fin (State.unlessReserved_next h).2

/-- All a step can do when it answers a next state: the mark is clear, the fetch succeeds, the word decodes, and the
instruction's meaning answers that state. -/
theorem step_next {s t : State} (h : step s = .next t) :
    s.mark = .clear ∧ ∃ w i, s.fetch = some w ∧ decodeWord s.xlen w = .ok i ∧ exec i s = .next t := by
  unfold step at h
  cases hm : s.mark <;> simp only [hm, Mark.stop] at h <;> try (cases h)
  refine ⟨rfl, ?_⟩
  split at h
  · cases h
  · rename_i w hw
    unfold executeWord at h
    split at h
    · exact ⟨w, _, hw, ‹_›, h⟩
    · rename_i r _
      cases r <;> cases h

end Sys2Proof.Machine
end

