-- ==== Sys2Proof/Laws/PerInstr.lean ====
section
/-! SUPPORT. The family HasRow, one lemma for each constructor: the instruction has a row in the opcode map, with its
mnemonic and XLEN column, its word is a word of that row, and the row makes the instruction of that word. -/

namespace Sys2Proof.Laws

/-- The row at place `k` of the map is the instruction's own. -/
def RowFits (i : Instr) (r : Row) : Prop :=
  r.mnemonic = i.mnemonic ∧ (∀ x, r.admits x = i.validAt x) ∧ encode i &&& r.mask = r.pattern ∧
    r.build (encode i) = i

/-- The instruction has a row of its own in R37's table. -/
def HasRow.Statement (i : Instr) : Prop := ∃ r ∈ rows, RowFits i r

/-- The row at a place of the table is in the table. -/
theorem row_mem {k : Nat} {r : Row} (h : rows[k]? = some r) : r ∈ rows := List.mem_of_getElem? h

theorem HasRow.addUw (rd rs1 rs2 : Reg) : HasRow.Statement (.addUw rd rs1 rs2) :=
  ⟨_, row_mem (k := 0) rfl, rfl, fun x => by cases x <;> rfl, encodeR_mask .., by
    simp only [encode, rowR, rdOf_encodeR, rs1Of_encodeR, rs2Of_encodeR]⟩

theorem HasRow.sh1add (rd rs1 rs2 : Reg) : HasRow.Statement (.sh1add rd rs1 rs2) :=
  ⟨_, row_mem (k := 1) rfl, rfl, fun x => by cases x <;> rfl, encodeR_mask .., by
    simp only [encode, rowR, rdOf_encodeR, rs1Of_encodeR, rs2Of_encodeR]⟩

theorem HasRow.sh1addUw (rd rs1 rs2 : Reg) : HasRow.Statement (.sh1addUw rd rs1 rs2) :=
  ⟨_, row_mem (k := 2) rfl, rfl, fun x => by cases x <;> rfl, encodeR_mask .., by
    simp only [encode, rowR, rdOf_encodeR, rs1Of_encodeR, rs2Of_encodeR]⟩

theorem HasRow.sh2add (rd rs1 rs2 : Reg) : HasRow.Statement (.sh2add rd rs1 rs2) :=
  ⟨_, row_mem (k := 3) rfl, rfl, fun x => by cases x <;> rfl, encodeR_mask .., by
    simp only [encode, rowR, rdOf_encodeR, rs1Of_encodeR, rs2Of_encodeR]⟩

theorem HasRow.sh2addUw (rd rs1 rs2 : Reg) : HasRow.Statement (.sh2addUw rd rs1 rs2) :=
  ⟨_, row_mem (k := 4) rfl, rfl, fun x => by cases x <;> rfl, encodeR_mask .., by
    simp only [encode, rowR, rdOf_encodeR, rs1Of_encodeR, rs2Of_encodeR]⟩

theorem HasRow.sh3add (rd rs1 rs2 : Reg) : HasRow.Statement (.sh3add rd rs1 rs2) :=
  ⟨_, row_mem (k := 5) rfl, rfl, fun x => by cases x <;> rfl, encodeR_mask .., by
    simp only [encode, rowR, rdOf_encodeR, rs1Of_encodeR, rs2Of_encodeR]⟩

theorem HasRow.sh3addUw (rd rs1 rs2 : Reg) : HasRow.Statement (.sh3addUw rd rs1 rs2) :=
  ⟨_, row_mem (k := 6) rfl, rfl, fun x => by cases x <;> rfl, encodeR_mask .., by
    simp only [encode, rowR, rdOf_encodeR, rs1Of_encodeR, rs2Of_encodeR]⟩

theorem HasRow.slliUw (rd rs1 : Reg) (shamt : BitVec 6) : HasRow.Statement (.slliUw rd rs1 shamt) :=
  ⟨_, row_mem (k := 7) rfl, rfl, fun x => by cases x <;> rfl, encodeI6_mask .., by
    simp only [encode, rowI6, rdOf_encodeI6, rs1Of_encodeI6, shamt6Of_encodeI6]⟩

theorem HasRow.andn (rd rs1 rs2 : Reg) : HasRow.Statement (.andn rd rs1 rs2) :=
  ⟨_, row_mem (k := 8) rfl, rfl, fun x => by cases x <;> rfl, encodeR_mask .., by
    simp only [encode, rowR, rdOf_encodeR, rs1Of_encodeR, rs2Of_encodeR]⟩

theorem HasRow.orn (rd rs1 rs2 : Reg) : HasRow.Statement (.orn rd rs1 rs2) :=
  ⟨_, row_mem (k := 9) rfl, rfl, fun x => by cases x <;> rfl, encodeR_mask .., by
    simp only [encode, rowR, rdOf_encodeR, rs1Of_encodeR, rs2Of_encodeR]⟩

theorem HasRow.xnor (rd rs1 rs2 : Reg) : HasRow.Statement (.xnor rd rs1 rs2) :=
  ⟨_, row_mem (k := 10) rfl, rfl, fun x => by cases x <;> rfl, encodeR_mask .., by
    simp only [encode, rowR, rdOf_encodeR, rs1Of_encodeR, rs2Of_encodeR]⟩

theorem HasRow.clz (rd rs1 : Reg) : HasRow.Statement (.clz rd rs1) :=
  ⟨_, row_mem (k := 11) rfl, rfl, fun x => by cases x <;> rfl, encodeU_mask .., by
    simp only [encode, rowU, rdOf_encodeU, rs1Of_encodeU]⟩

theorem HasRow.clzw (rd rs1 : Reg) : HasRow.Statement (.clzw rd rs1) :=
  ⟨_, row_mem (k := 12) rfl, rfl, fun x => by cases x <;> rfl, encodeU_mask .., by
    simp only [encode, rowU, rdOf_encodeU, rs1Of_encodeU]⟩

theorem HasRow.ctz (rd rs1 : Reg) : HasRow.Statement (.ctz rd rs1) :=
  ⟨_, row_mem (k := 13) rfl, rfl, fun x => by cases x <;> rfl, encodeU_mask .., by
    simp only [encode, rowU, rdOf_encodeU, rs1Of_encodeU]⟩

theorem HasRow.ctzw (rd rs1 : Reg) : HasRow.Statement (.ctzw rd rs1) :=
  ⟨_, row_mem (k := 14) rfl, rfl, fun x => by cases x <;> rfl, encodeU_mask .., by
    simp only [encode, rowU, rdOf_encodeU, rs1Of_encodeU]⟩

theorem HasRow.cpop (rd rs1 : Reg) : HasRow.Statement (.cpop rd rs1) :=
  ⟨_, row_mem (k := 15) rfl, rfl, fun x => by cases x <;> rfl, encodeU_mask .., by
    simp only [encode, rowU, rdOf_encodeU, rs1Of_encodeU]⟩

theorem HasRow.cpopw (rd rs1 : Reg) : HasRow.Statement (.cpopw rd rs1) :=
  ⟨_, row_mem (k := 16) rfl, rfl, fun x => by cases x <;> rfl, encodeU_mask .., by
    simp only [encode, rowU, rdOf_encodeU, rs1Of_encodeU]⟩

theorem HasRow.max (rd rs1 rs2 : Reg) : HasRow.Statement (.max rd rs1 rs2) :=
  ⟨_, row_mem (k := 17) rfl, rfl, fun x => by cases x <;> rfl, encodeR_mask .., by
    simp only [encode, rowR, rdOf_encodeR, rs1Of_encodeR, rs2Of_encodeR]⟩

theorem HasRow.maxu (rd rs1 rs2 : Reg) : HasRow.Statement (.maxu rd rs1 rs2) :=
  ⟨_, row_mem (k := 18) rfl, rfl, fun x => by cases x <;> rfl, encodeR_mask .., by
    simp only [encode, rowR, rdOf_encodeR, rs1Of_encodeR, rs2Of_encodeR]⟩

theorem HasRow.min (rd rs1 rs2 : Reg) : HasRow.Statement (.min rd rs1 rs2) :=
  ⟨_, row_mem (k := 19) rfl, rfl, fun x => by cases x <;> rfl, encodeR_mask .., by
    simp only [encode, rowR, rdOf_encodeR, rs1Of_encodeR, rs2Of_encodeR]⟩

theorem HasRow.minu (rd rs1 rs2 : Reg) : HasRow.Statement (.minu rd rs1 rs2) :=
  ⟨_, row_mem (k := 20) rfl, rfl, fun x => by cases x <;> rfl, encodeR_mask .., by
    simp only [encode, rowR, rdOf_encodeR, rs1Of_encodeR, rs2Of_encodeR]⟩

theorem HasRow.sextB (rd rs1 : Reg) : HasRow.Statement (.sextB rd rs1) :=
  ⟨_, row_mem (k := 21) rfl, rfl, fun x => by cases x <;> rfl, encodeU_mask .., by
    simp only [encode, rowU, rdOf_encodeU, rs1Of_encodeU]⟩

theorem HasRow.sextH (rd rs1 : Reg) : HasRow.Statement (.sextH rd rs1) :=
  ⟨_, row_mem (k := 22) rfl, rfl, fun x => by cases x <;> rfl, encodeU_mask .., by
    simp only [encode, rowU, rdOf_encodeU, rs1Of_encodeU]⟩

theorem HasRow.zextHRv32 (rd rs1 : Reg) : HasRow.Statement (.zextHRv32 rd rs1) :=
  ⟨_, row_mem (k := 23) rfl, rfl, fun x => by cases x <;> rfl, encodeU_mask .., by
    simp only [encode, rowU, rdOf_encodeU, rs1Of_encodeU]⟩

theorem HasRow.zextHRv64 (rd rs1 : Reg) : HasRow.Statement (.zextHRv64 rd rs1) :=
  ⟨_, row_mem (k := 24) rfl, rfl, fun x => by cases x <;> rfl, encodeU_mask .., by
    simp only [encode, rowU, rdOf_encodeU, rs1Of_encodeU]⟩

theorem HasRow.rol (rd rs1 rs2 : Reg) : HasRow.Statement (.rol rd rs1 rs2) :=
  ⟨_, row_mem (k := 25) rfl, rfl, fun x => by cases x <;> rfl, encodeR_mask .., by
    simp only [encode, rowR, rdOf_encodeR, rs1Of_encodeR, rs2Of_encodeR]⟩

theorem HasRow.rolw (rd rs1 rs2 : Reg) : HasRow.Statement (.rolw rd rs1 rs2) :=
  ⟨_, row_mem (k := 26) rfl, rfl, fun x => by cases x <;> rfl, encodeR_mask .., by
    simp only [encode, rowR, rdOf_encodeR, rs1Of_encodeR, rs2Of_encodeR]⟩

theorem HasRow.ror (rd rs1 rs2 : Reg) : HasRow.Statement (.ror rd rs1 rs2) :=
  ⟨_, row_mem (k := 27) rfl, rfl, fun x => by cases x <;> rfl, encodeR_mask .., by
    simp only [encode, rowR, rdOf_encodeR, rs1Of_encodeR, rs2Of_encodeR]⟩

theorem HasRow.roriRv32 (rd rs1 : Reg) (shamt : BitVec 5) : HasRow.Statement (.roriRv32 rd rs1 shamt) :=
  ⟨_, row_mem (k := 28) rfl, rfl, fun x => by cases x <;> rfl, encodeI5_mask .., by
    simp only [encode, rowI5, rdOf_encodeI5, rs1Of_encodeI5, shamt5Of_encodeI5]⟩

theorem HasRow.roriRv64 (rd rs1 : Reg) (shamt : BitVec 6) : HasRow.Statement (.roriRv64 rd rs1 shamt) :=
  ⟨_, row_mem (k := 29) rfl, rfl, fun x => by cases x <;> rfl, encodeI6_mask .., by
    simp only [encode, rowI6, rdOf_encodeI6, rs1Of_encodeI6, shamt6Of_encodeI6]⟩

theorem HasRow.roriw (rd rs1 : Reg) (shamt : BitVec 5) : HasRow.Statement (.roriw rd rs1 shamt) :=
  ⟨_, row_mem (k := 30) rfl, rfl, fun x => by cases x <;> rfl, encodeI5_mask .., by
    simp only [encode, rowI5, rdOf_encodeI5, rs1Of_encodeI5, shamt5Of_encodeI5]⟩

theorem HasRow.rorw (rd rs1 rs2 : Reg) : HasRow.Statement (.rorw rd rs1 rs2) :=
  ⟨_, row_mem (k := 31) rfl, rfl, fun x => by cases x <;> rfl, encodeR_mask .., by
    simp only [encode, rowR, rdOf_encodeR, rs1Of_encodeR, rs2Of_encodeR]⟩

theorem HasRow.orcB (rd rs1 : Reg) : HasRow.Statement (.orcB rd rs1) :=
  ⟨_, row_mem (k := 32) rfl, rfl, fun x => by cases x <;> rfl, encodeU_mask .., by
    simp only [encode, rowU, rdOf_encodeU, rs1Of_encodeU]⟩

theorem HasRow.rev8Rv32 (rd rs1 : Reg) : HasRow.Statement (.rev8Rv32 rd rs1) :=
  ⟨_, row_mem (k := 33) rfl, rfl, fun x => by cases x <;> rfl, encodeU_mask .., by
    simp only [encode, rowU, rdOf_encodeU, rs1Of_encodeU]⟩

theorem HasRow.rev8Rv64 (rd rs1 : Reg) : HasRow.Statement (.rev8Rv64 rd rs1) :=
  ⟨_, row_mem (k := 34) rfl, rfl, fun x => by cases x <;> rfl, encodeU_mask .., by
    simp only [encode, rowU, rdOf_encodeU, rs1Of_encodeU]⟩

theorem HasRow.clmul (rd rs1 rs2 : Reg) : HasRow.Statement (.clmul rd rs1 rs2) :=
  ⟨_, row_mem (k := 35) rfl, rfl, fun x => by cases x <;> rfl, encodeR_mask .., by
    simp only [encode, rowR, rdOf_encodeR, rs1Of_encodeR, rs2Of_encodeR]⟩

theorem HasRow.clmulh (rd rs1 rs2 : Reg) : HasRow.Statement (.clmulh rd rs1 rs2) :=
  ⟨_, row_mem (k := 36) rfl, rfl, fun x => by cases x <;> rfl, encodeR_mask .., by
    simp only [encode, rowR, rdOf_encodeR, rs1Of_encodeR, rs2Of_encodeR]⟩

theorem HasRow.clmulr (rd rs1 rs2 : Reg) : HasRow.Statement (.clmulr rd rs1 rs2) :=
  ⟨_, row_mem (k := 37) rfl, rfl, fun x => by cases x <;> rfl, encodeR_mask .., by
    simp only [encode, rowR, rdOf_encodeR, rs1Of_encodeR, rs2Of_encodeR]⟩

theorem HasRow.bclr (rd rs1 rs2 : Reg) : HasRow.Statement (.bclr rd rs1 rs2) :=
  ⟨_, row_mem (k := 38) rfl, rfl, fun x => by cases x <;> rfl, encodeR_mask .., by
    simp only [encode, rowR, rdOf_encodeR, rs1Of_encodeR, rs2Of_encodeR]⟩

theorem HasRow.bclriRv32 (rd rs1 : Reg) (shamt : BitVec 5) : HasRow.Statement (.bclriRv32 rd rs1 shamt) :=
  ⟨_, row_mem (k := 39) rfl, rfl, fun x => by cases x <;> rfl, encodeI5_mask .., by
    simp only [encode, rowI5, rdOf_encodeI5, rs1Of_encodeI5, shamt5Of_encodeI5]⟩

theorem HasRow.bclriRv64 (rd rs1 : Reg) (shamt : BitVec 6) : HasRow.Statement (.bclriRv64 rd rs1 shamt) :=
  ⟨_, row_mem (k := 40) rfl, rfl, fun x => by cases x <;> rfl, encodeI6_mask .., by
    simp only [encode, rowI6, rdOf_encodeI6, rs1Of_encodeI6, shamt6Of_encodeI6]⟩

theorem HasRow.bext (rd rs1 rs2 : Reg) : HasRow.Statement (.bext rd rs1 rs2) :=
  ⟨_, row_mem (k := 41) rfl, rfl, fun x => by cases x <;> rfl, encodeR_mask .., by
    simp only [encode, rowR, rdOf_encodeR, rs1Of_encodeR, rs2Of_encodeR]⟩

theorem HasRow.bextiRv32 (rd rs1 : Reg) (shamt : BitVec 5) : HasRow.Statement (.bextiRv32 rd rs1 shamt) :=
  ⟨_, row_mem (k := 42) rfl, rfl, fun x => by cases x <;> rfl, encodeI5_mask .., by
    simp only [encode, rowI5, rdOf_encodeI5, rs1Of_encodeI5, shamt5Of_encodeI5]⟩

theorem HasRow.bextiRv64 (rd rs1 : Reg) (shamt : BitVec 6) : HasRow.Statement (.bextiRv64 rd rs1 shamt) :=
  ⟨_, row_mem (k := 43) rfl, rfl, fun x => by cases x <;> rfl, encodeI6_mask .., by
    simp only [encode, rowI6, rdOf_encodeI6, rs1Of_encodeI6, shamt6Of_encodeI6]⟩

theorem HasRow.binv (rd rs1 rs2 : Reg) : HasRow.Statement (.binv rd rs1 rs2) :=
  ⟨_, row_mem (k := 44) rfl, rfl, fun x => by cases x <;> rfl, encodeR_mask .., by
    simp only [encode, rowR, rdOf_encodeR, rs1Of_encodeR, rs2Of_encodeR]⟩

theorem HasRow.binviRv32 (rd rs1 : Reg) (shamt : BitVec 5) : HasRow.Statement (.binviRv32 rd rs1 shamt) :=
  ⟨_, row_mem (k := 45) rfl, rfl, fun x => by cases x <;> rfl, encodeI5_mask .., by
    simp only [encode, rowI5, rdOf_encodeI5, rs1Of_encodeI5, shamt5Of_encodeI5]⟩

theorem HasRow.binviRv64 (rd rs1 : Reg) (shamt : BitVec 6) : HasRow.Statement (.binviRv64 rd rs1 shamt) :=
  ⟨_, row_mem (k := 46) rfl, rfl, fun x => by cases x <;> rfl, encodeI6_mask .., by
    simp only [encode, rowI6, rdOf_encodeI6, rs1Of_encodeI6, shamt6Of_encodeI6]⟩

theorem HasRow.bset (rd rs1 rs2 : Reg) : HasRow.Statement (.bset rd rs1 rs2) :=
  ⟨_, row_mem (k := 47) rfl, rfl, fun x => by cases x <;> rfl, encodeR_mask .., by
    simp only [encode, rowR, rdOf_encodeR, rs1Of_encodeR, rs2Of_encodeR]⟩

theorem HasRow.bsetiRv32 (rd rs1 : Reg) (shamt : BitVec 5) : HasRow.Statement (.bsetiRv32 rd rs1 shamt) :=
  ⟨_, row_mem (k := 48) rfl, rfl, fun x => by cases x <;> rfl, encodeI5_mask .., by
    simp only [encode, rowI5, rdOf_encodeI5, rs1Of_encodeI5, shamt5Of_encodeI5]⟩

theorem HasRow.bsetiRv64 (rd rs1 : Reg) (shamt : BitVec 6) : HasRow.Statement (.bsetiRv64 rd rs1 shamt) :=
  ⟨_, row_mem (k := 49) rfl, rfl, fun x => by cases x <;> rfl, encodeI6_mask .., by
    simp only [encode, rowI6, rdOf_encodeI6, rs1Of_encodeI6, shamt6Of_encodeI6]⟩

end Sys2Proof.Laws
end

