-- ==== Sys2Proof/Tests/Slice0.lean ====
section
/-! SUPPORT. Tests and witnesses. Every expected value is the spec's: the decode words are the encoding figures of
spec/opcode_table.json with the operands of the rules' examples, the results are rows of spec/95_test_vectors.md
section 2 (named in each theorem), the overlaps its rows O, the refusals its rows D. -/

namespace Sys2Proof.Machine.Tests

open Sys2Proof Sys2Proof.Machine

/-- A start state with `x11` = `a`, `x12` = `b`, the other registers 0 and the word `w` at `pc` = 0x1000. -/
def start (x : Xlen) (a b : Nat) (w : InstWord) : State :=
  (State.start x [] (((Vector.replicate 31 0#x.bits).set 10 (BitVec.ofNat _ a)).set 11 (BitVec.ofNat _ b))
    (BitVec.ofNat _ 0x1000)).loadWord w

/-- The same, placed at another `pc`. -/
def startAt (x : Xlen) (pc : Nat) (w : InstWord) : State :=
  (State.start x [] (Vector.replicate 31 7#x.bits) (BitVec.ofNat _ pc)).loadWord w

/-- `x10` after one step from `start`. -/
def x10After (x : Xlen) (a b : Nat) (w : InstWord) : Option Nat :=
  match step (start x a b w) with
  | .next t => some (t.regNat 10#5)
  | _ => none

def isNext : Out → Bool
  | .next _ => true
  | _ => false

theorem next_of_isNext {o : Out} (h : isNext o = true) : ∃ t, o = .next t := by
  cases o with
  | next t => exact ⟨t, rfl⟩
  | fault r => exact absurd h (by simp [isNext])
  | refused r => exact absurd h (by simp [isNext])

/-! ## Decoding: one written-out word for each constructor -/

theorem test_decode_addUw :
    decodeWord .rv64 0b0000100_01100_01011_000_01010_0111011#32 = .ok (.addUw 10#5 11#5 12#5) := by rfl
theorem test_decode_sh1add :
    decodeWord .rv32 0b0010000_01100_01011_010_01010_0110011#32 = .ok (.sh1add 10#5 11#5 12#5) := by rfl
theorem test_decode_sh1addUw :
    decodeWord .rv64 0b0010000_01100_01011_010_01010_0111011#32 = .ok (.sh1addUw 10#5 11#5 12#5) := by rfl
theorem test_decode_sh2add :
    decodeWord .rv32 0b0010000_01100_01011_100_01010_0110011#32 = .ok (.sh2add 10#5 11#5 12#5) := by rfl
theorem test_decode_sh2addUw :
    decodeWord .rv64 0b0010000_01100_01011_100_01010_0111011#32 = .ok (.sh2addUw 10#5 11#5 12#5) := by rfl
theorem test_decode_sh3add :
    decodeWord .rv32 0b0010000_01100_01011_110_01010_0110011#32 = .ok (.sh3add 10#5 11#5 12#5) := by rfl
theorem test_decode_sh3addUw :
    decodeWord .rv64 0b0010000_01100_01011_110_01010_0111011#32 = .ok (.sh3addUw 10#5 11#5 12#5) := by rfl
theorem test_decode_slliUw :
    decodeWord .rv64 0b000010_100001_01011_001_01010_0011011#32 = .ok (.slliUw 10#5 11#5 33#6) := by rfl
theorem test_decode_andn :
    decodeWord .rv32 0b0100000_01100_01011_111_01010_0110011#32 = .ok (.andn 10#5 11#5 12#5) := by rfl
theorem test_decode_orn :
    decodeWord .rv32 0b0100000_01100_01011_110_01010_0110011#32 = .ok (.orn 10#5 11#5 12#5) := by rfl
theorem test_decode_xnor :
    decodeWord .rv32 0b0100000_01100_01011_100_01010_0110011#32 = .ok (.xnor 10#5 11#5 12#5) := by rfl
theorem test_decode_clz :
    decodeWord .rv32 0b011000000000_01011_001_01010_0010011#32 = .ok (.clz 10#5 11#5) := by rfl
theorem test_decode_clzw :
    decodeWord .rv64 0b011000000000_01011_001_01010_0011011#32 = .ok (.clzw 10#5 11#5) := by rfl
theorem test_decode_ctz :
    decodeWord .rv32 0b011000000001_01011_001_01010_0010011#32 = .ok (.ctz 10#5 11#5) := by rfl
theorem test_decode_ctzw :
    decodeWord .rv64 0b011000000001_01011_001_01010_0011011#32 = .ok (.ctzw 10#5 11#5) := by rfl
theorem test_decode_cpop :
    decodeWord .rv32 0b011000000010_01011_001_01010_0010011#32 = .ok (.cpop 10#5 11#5) := by rfl
theorem test_decode_cpopw :
    decodeWord .rv64 0b011000000010_01011_001_01010_0011011#32 = .ok (.cpopw 10#5 11#5) := by rfl
theorem test_decode_max :
    decodeWord .rv32 0b0000101_01100_01011_110_01010_0110011#32 = .ok (.max 10#5 11#5 12#5) := by rfl
theorem test_decode_maxu :
    decodeWord .rv32 0b0000101_01100_01011_111_01010_0110011#32 = .ok (.maxu 10#5 11#5 12#5) := by rfl
theorem test_decode_min :
    decodeWord .rv32 0b0000101_01100_01011_100_01010_0110011#32 = .ok (.min 10#5 11#5 12#5) := by rfl
theorem test_decode_minu :
    decodeWord .rv32 0b0000101_01100_01011_101_01010_0110011#32 = .ok (.minu 10#5 11#5 12#5) := by rfl
theorem test_decode_sextB :
    decodeWord .rv32 0b011000000100_01011_001_01010_0010011#32 = .ok (.sextB 10#5 11#5) := by rfl
theorem test_decode_sextH :
    decodeWord .rv32 0b011000000101_01011_001_01010_0010011#32 = .ok (.sextH 10#5 11#5) := by rfl
theorem test_decode_zextHRv32 :
    decodeWord .rv32 0b000010000000_01011_100_01010_0110011#32 = .ok (.zextHRv32 10#5 11#5) := by rfl
theorem test_decode_zextHRv64 :
    decodeWord .rv64 0b000010000000_01011_100_01010_0111011#32 = .ok (.zextHRv64 10#5 11#5) := by rfl
theorem test_decode_rol :
    decodeWord .rv32 0b0110000_01100_01011_001_01010_0110011#32 = .ok (.rol 10#5 11#5 12#5) := by rfl
theorem test_decode_rolw :
    decodeWord .rv64 0b0110000_01100_01011_001_01010_0111011#32 = .ok (.rolw 10#5 11#5 12#5) := by rfl
theorem test_decode_ror :
    decodeWord .rv32 0b0110000_01100_01011_101_01010_0110011#32 = .ok (.ror 10#5 11#5 12#5) := by rfl
theorem test_decode_roriRv32 :
    decodeWord .rv32 0b0110000_11111_01011_101_01010_0010011#32 = .ok (.roriRv32 10#5 11#5 31#5) := by rfl
theorem test_decode_roriRv64 :
    decodeWord .rv64 0b011000_111111_01011_101_01010_0010011#32 = .ok (.roriRv64 10#5 11#5 63#6) := by rfl
theorem test_decode_roriw :
    decodeWord .rv64 0b0110000_01000_01011_101_01010_0011011#32 = .ok (.roriw 10#5 11#5 8#5) := by rfl
theorem test_decode_rorw :
    decodeWord .rv64 0b0110000_01100_01011_101_01010_0111011#32 = .ok (.rorw 10#5 11#5 12#5) := by rfl
theorem test_decode_orcB :
    decodeWord .rv32 0b001010000111_01011_101_01010_0010011#32 = .ok (.orcB 10#5 11#5) := by rfl
theorem test_decode_rev8Rv32 :
    decodeWord .rv32 0b011010011000_01011_101_01010_0010011#32 = .ok (.rev8Rv32 10#5 11#5) := by rfl
theorem test_decode_rev8Rv64 :
    decodeWord .rv64 0b011010111000_01011_101_01010_0010011#32 = .ok (.rev8Rv64 10#5 11#5) := by rfl
theorem test_decode_clmul :
    decodeWord .rv32 0b0000101_01100_01011_001_01010_0110011#32 = .ok (.clmul 10#5 11#5 12#5) := by rfl
theorem test_decode_clmulh :
    decodeWord .rv32 0b0000101_01100_01011_011_01010_0110011#32 = .ok (.clmulh 10#5 11#5 12#5) := by rfl
theorem test_decode_clmulr :
    decodeWord .rv32 0b0000101_01100_01011_010_01010_0110011#32 = .ok (.clmulr 10#5 11#5 12#5) := by rfl
theorem test_decode_bclr :
    decodeWord .rv32 0b0100100_01100_01011_001_01010_0110011#32 = .ok (.bclr 10#5 11#5 12#5) := by rfl
theorem test_decode_bclriRv32 :
    decodeWord .rv32 0b0100100_11111_01011_001_01010_0010011#32 = .ok (.bclriRv32 10#5 11#5 31#5) := by rfl
theorem test_decode_bclriRv64 :
    decodeWord .rv64 0b010010_100001_01011_001_01010_0010011#32 = .ok (.bclriRv64 10#5 11#5 33#6) := by rfl
theorem test_decode_bext :
    decodeWord .rv32 0b0100100_01100_01011_101_01010_0110011#32 = .ok (.bext 10#5 11#5 12#5) := by rfl
theorem test_decode_bextiRv32 :
    decodeWord .rv32 0b0100100_00100_01011_101_01010_0010011#32 = .ok (.bextiRv32 10#5 11#5 4#5) := by rfl
theorem test_decode_bextiRv64 :
    decodeWord .rv64 0b010010_111111_01011_101_01010_0010011#32 = .ok (.bextiRv64 10#5 11#5 63#6) := by rfl
theorem test_decode_binv :
    decodeWord .rv32 0b0110100_01100_01011_001_01010_0110011#32 = .ok (.binv 10#5 11#5 12#5) := by rfl
theorem test_decode_binviRv32 :
    decodeWord .rv32 0b0110100_10001_01011_001_01010_0010011#32 = .ok (.binviRv32 10#5 11#5 17#5) := by rfl
theorem test_decode_binviRv64 :
    decodeWord .rv64 0b011010_101000_01011_001_01010_0010011#32 = .ok (.binviRv64 10#5 11#5 40#6) := by rfl
theorem test_decode_bset :
    decodeWord .rv32 0b0010100_01100_01011_001_01010_0110011#32 = .ok (.bset 10#5 11#5 12#5) := by rfl
theorem test_decode_bsetiRv32 :
    decodeWord .rv32 0b0010100_01001_01011_001_01010_0010011#32 = .ok (.bsetiRv32 10#5 11#5 9#5) := by rfl
theorem test_decode_bsetiRv64 :
    decodeWord .rv64 0b001010_111110_01011_001_01010_0010011#32 = .ok (.bsetiRv64 10#5 11#5 62#6) := by rfl

/-- R48. -/
theorem test_assembly : (Instr.slliUw 10#5 11#5 33#6).assembly = "slli.uw x10, x11, 33" := by rfl

/-! ## Well-formedness: the one check (the row's XLEN column) refuses what it must -/

theorem test_wf_refuses_rv64_only_at_32 : ¬(Instr.addUw 1#5 2#5 3#5).WellFormed .rv32 := by decide
theorem test_wf_refuses_word_shift_at_32 : ¬(Instr.slliUw 1#5 2#5 0#6).WellFormed .rv32 := by decide
theorem test_wf_refuses_rv32_row_at_64 : ¬(Instr.zextHRv32 1#5 2#5).WellFormed .rv64 := by decide
theorem test_wf_refuses_rv64_row_at_32 : ¬(Instr.rev8Rv64 1#5 2#5).WellFormed .rv32 := by decide
theorem test_wf_refuses_short_shamt_at_64 : ¬(Instr.roriRv32 1#5 2#5 3#5).WellFormed .rv64 := by decide
theorem test_wf_refuses_long_shamt_at_32 : ¬(Instr.bsetiRv64 1#5 2#5 3#6).WellFormed .rv32 := by decide
theorem test_wf_accepts : (Instr.bsetiRv64 0#5 0#5 63#6).WellFormed .rv64 ∧ (Instr.max 0#5 0#5 0#5).WellFormed .rv32 := by
  decide

/-! ## Refused words (spec/95_test_vectors.md section 3) and the stuck fetch -/

theorem test_D2_unspecified : decodeWord .rv32 0x08C5853B#32 = .error .unspecifiedWord := by rfl
theorem test_D4_unspecified : decodeWord .rv64 0x0805C533#32 = .error .unspecifiedWord := by rfl
theorem test_D7_unspecified : decodeWord .rv32 0x0815C533#32 = .error .unspecifiedWord := by rfl
theorem test_D12_unspecified : decodeWord .rv32 0x6B85D513#32 = .error .unspecifiedWord := by rfl
theorem test_D19_reserved : decodeWord .rv32 0x6205D513#32 = .error .reservedEncoding := by rfl
theorem test_D23_reserved : decodeWord .rv32 0x4A059513#32 = .error .reservedEncoding := by rfl
theorem test_D25_reserved : decodeWord .rv32 0x4BF5D513#32 = .error .reservedEncoding := by rfl
theorem test_D27_reserved : decodeWord .rv32 0x6A059513#32 = .error .reservedEncoding := by rfl
theorem test_D28_reserved : decodeWord .rv32 0x2BF01513#32 = .error .reservedEncoding := by rfl
theorem test_D31_unspecified : decodeWord .rv64 0x6205D51B#32 = .error .unspecifiedWord := by rfl
theorem test_step_refuses_reserved : step (start .rv32 1 2 0x6205D513#32) = .refused .reservedEncoding := by rfl
theorem test_step_refuses_unspecified : step (start .rv32 1 2 0x08C5853B#32) = .refused .unspecifiedWord := by rfl
theorem test_step_stuck_at_reset : step State.reset = .fault .stuckFetch := by rfl

/-! ## Results: spec/95_test_vectors.md section 2 -/

theorem test_V40_3_addUw :
    x10After .rv64 0x123456789ABCDEF0 0x0000000000000000 0x08C5853B#32 = some 0x000000009ABCDEF0 := by rfl
theorem test_V40_1_addUw :
    x10After .rv64 0xFFFFFFFF00000003 0x0000000080001000 0x08C5853B#32 = some 0x0000000080001003 := by rfl
theorem test_V40_4_sh1add : x10After .rv32 0x80000001 0x00000001 0x20C5A533#32 = some 0x00000003 := by rfl
theorem test_V40_5_sh1add :
    x10After .rv64 0x8000000000000001 0x0000000000000001 0x20C5A533#32 = some 0x0000000000000003 := by rfl
theorem test_V40_6_sh1addUw :
    x10After .rv64 0xFFFFFFFFFFFFFFFF 0x0000000000000001 0x20C5A53B#32 = some 0x00000001FFFFFFFF := by rfl
theorem test_V40_7_sh2add : x10After .rv32 0x40000003 0xFFFFFFF0 0x20C5C533#32 = some 0xFFFFFFFC := by rfl
theorem test_V40_8_sh2add :
    x10After .rv64 0x0000000000000003 0x0000000000001000 0x20C5C533#32 = some 0x000000000000100C := by rfl
theorem test_V40_9_sh2addUw :
    x10After .rv64 0xABCDEF0180000000 0x0000000000000010 0x20C5C53B#32 = some 0x0000000200000010 := by rfl
theorem test_V40_10_sh3add : x10After .rv32 0x20000001 0x00000007 0x20C5E533#32 = some 0x0000000F := by rfl
theorem test_V40_11_sh3add :
    x10After .rv64 0xE000000000000001 0x0000000000000008 0x20C5E533#32 = some 0x0000000000000010 := by rfl
theorem test_V40_12_sh3addUw :
    x10After .rv64 0xFFFFFFFF00000003 0x0000000080001000 0x20C5E53B#32 = some 0x0000000080001018 := by rfl
theorem test_V40_13_sh3addUw :
    x10After .rv64 0x00000000FFFFFFFF 0xFFFFFFFFFFFFFFFF 0x20C5E53B#32 = some 0x00000007FFFFFFF7 := by rfl
theorem test_V40_16_slliUw : x10After .rv64 0xFFFFFFFF80000001 0 0x0A05951B#32 = some 0x8000000100000000 := by rfl
theorem test_V40_18_slliUw : x10After .rv64 0x00000000FFFFFFFF 0 0x0BF5951B#32 = some 0x8000000000000000 := by rfl
theorem test_V41_3_andn : x10After .rv32 0x12345678 0x00000000 0x40C5F533#32 = some 0x12345678 := by rfl
theorem test_V41_2_andn :
    x10After .rv64 0xFFFFFFFFFFFFFFFF 0x00000000FFFFFFFF 0x40C5F533#32 = some 0xFFFFFFFF00000000 := by rfl
theorem test_V41_6_orn : x10After .rv32 0x12345678 0x00000000 0x40C5E533#32 = some 0xFFFFFFFF := by rfl
theorem test_V41_5_orn :
    x10After .rv64 0x0000000000000000 0x00000000FFFFFFFF 0x40C5E533#32 = some 0xFFFFFFFF00000000 := by rfl
theorem test_V41_8_xnor : x10After .rv32 0x12345678 0x12345678 0x40C5C533#32 = some 0xFFFFFFFF := by rfl
theorem test_V41_9_xnor :
    x10After .rv64 0xFFFF0000FFFF0000 0x00FF00FF00FF00FF 0x40C5C533#32 = some 0x00FFFF0000FFFF00 := by rfl
theorem test_V42_4_clz : x10After .rv32 0x00F0A500 0 0x60059513#32 = some 0x00000008 := by rfl
theorem test_V42_5_clz : x10After .rv64 0x0000000000000000 0 0x60059513#32 = some 0x0000000000000040 := by rfl
theorem test_V42_9_clzw : x10After .rv64 0xFFFFFFFF00000000 0 0x6005951B#32 = some 0x0000000000000020 := by rfl
theorem test_V42_10_clzw : x10After .rv64 0xFFFFFFFF00010000 0 0x6005951B#32 = some 0x000000000000000F := by rfl
theorem test_V42_13_ctz : x10After .rv32 0x80000000 0 0x60159513#32 = some 0x0000001F := by rfl
theorem test_V42_16_ctz : x10After .rv64 0x0000000100000000 0 0x60159513#32 = some 0x0000000000000020 := by rfl
theorem test_V42_18_ctzw : x10After .rv64 0xFFFFFFFF00000000 0 0x6015951B#32 = some 0x0000000000000020 := by rfl
theorem test_V42_19_ctzw : x10After .rv64 0x0000000100010000 0 0x6015951B#32 = some 0x0000000000000010 := by rfl
theorem test_V42_23_cpop : x10After .rv32 0x00F0A500 0 0x60259513#32 = some 0x00000008 := by rfl
theorem test_V42_24_cpop : x10After .rv64 0xFFFFFFFFFFFFFFFF 0 0x60259513#32 = some 0x0000000000000040 := by rfl
theorem test_V42_28_cpopw : x10After .rv64 0x123456780F0F0F0F 0 0x6025951B#32 = some 0x0000000000000010 := by rfl
theorem test_V42_27_cpopw : x10After .rv64 0xFFFFFFFFFFFFFFFF 0 0x6025951B#32 = some 0x0000000000000020 := by rfl
theorem test_V43_5_max : x10After .rv32 0x80000000 0x7FFFFFFF 0x0AC5E533#32 = some 0x7FFFFFFF := by rfl
theorem test_V43_16_max :
    x10After .rv64 0x8000000000000000 0x8000000000000000 0x0AC5E533#32 = some 0x8000000000000000 := by rfl
theorem test_V43_6_maxu : x10After .rv32 0x80000000 0x7FFFFFFF 0x0AC5F533#32 = some 0x80000000 := by rfl
theorem test_V43_10_maxu :
    x10After .rv64 0x00000000FFFFFFFF 0xFFFFFFFFFFFFFFFF 0x0AC5F533#32 = some 0xFFFFFFFFFFFFFFFF := by rfl
theorem test_V43_7_min : x10After .rv32 0x80000000 0x7FFFFFFF 0x0AC5C533#32 = some 0x80000000 := by rfl
theorem test_V43_11_min :
    x10After .rv64 0x00000000FFFFFFFF 0xFFFFFFFFFFFFFFFF 0x0AC5C533#32 = some 0xFFFFFFFFFFFFFFFF := by rfl
theorem test_V43_8_minu : x10After .rv32 0x80000000 0x7FFFFFFF 0x0AC5D533#32 = some 0x7FFFFFFF := by rfl
theorem test_V43_12_minu :
    x10After .rv64 0x00000000FFFFFFFF 0xFFFFFFFFFFFFFFFF 0x0AC5D533#32 = some 0x00000000FFFFFFFF := by rfl
theorem test_V44_1_sextB : x10After .rv32 0x12345680 0 0x60459513#32 = some 0xFFFFFF80 := by rfl
theorem test_V44_3_sextB : x10After .rv64 0x0000000000000080 0 0x60459513#32 = some 0xFFFFFFFFFFFFFF80 := by rfl
theorem test_V44_5_sextH : x10After .rv32 0x12348000 0 0x60559513#32 = some 0xFFFF8000 := by rfl
theorem test_V44_8_sextH : x10After .rv64 0xABCDEF0123457FFF 0 0x60559513#32 = some 0x0000000000007FFF := by rfl
theorem test_V44_9_zextHRv32 : x10After .rv32 0xFFFF8001 0 0x0805C533#32 = some 0x00008001 := by rfl
theorem test_V44_10_zextHRv32 : x10After .rv32 0x12340000 0 0x0805C533#32 = some 0x00000000 := by rfl
theorem test_V44_11_zextHRv64 : x10After .rv64 0xFFFFFFFFFFFF8001 0 0x0805C53B#32 = some 0x0000000000008001 := by rfl
theorem test_V45_3_rol : x10After .rv32 0x12345678 0x00000024 0x60C59533#32 = some 0x23456781 := by rfl
theorem test_V45_7_rol :
    x10After .rv64 0x0123456789ABCDEF 0x0000000000000020 0x60C59533#32 = some 0x89ABCDEF01234567 := by rfl
theorem test_V45_21_rolw :
    x10After .rv64 0x1234567812345678 0x0000000000000024 0x60C5953B#32 = some 0x0000000023456781 := by rfl
theorem test_V45_20_rolw :
    x10After .rv64 0x0000000080000001 0x0000000000000000 0x60C5953B#32 = some 0xFFFFFFFF80000001 := by rfl
theorem test_V45_10_ror : x10After .rv32 0x12345678 0xFFFFFFE8 0x60C5D533#32 = some 0x78123456 := by rfl
theorem test_V45_11_ror :
    x10After .rv64 0x0123456789ABCDEF 0x0000000000000004 0x60C5D533#32 = some 0xF0123456789ABCDE := by rfl
theorem test_V45_15_roriRv32 : x10After .rv32 0x12345678 0 0x61F5D513#32 = some 0x2468ACF0 := by rfl
theorem test_V45_14_roriRv32 : x10After .rv32 0x12345678 0 0x6085D513#32 = some 0x78123456 := by rfl
theorem test_V45_18_roriRv64 : x10After .rv64 0x0123456789ABCDEF 0 0x63F5D513#32 = some 0x02468ACF13579BDE := by rfl
theorem test_V45_17_roriRv64 : x10After .rv64 0x0123456789ABCDEF 0 0x6205D513#32 = some 0x89ABCDEF01234567 := by rfl
theorem test_V45_29_roriw : x10After .rv64 0xDEADBEEF12345678 0 0x6085D51B#32 = some 0x0000000078123456 := by rfl
theorem test_V45_27_roriw : x10After .rv64 0xFFFFFFFF00000001 0 0x6015D51B#32 = some 0xFFFFFFFF80000000 := by rfl
theorem test_V45_25_rorw :
    x10After .rv64 0x0000000012345678 0xFFFFFFFFFFFFFFE8 0x60C5D53B#32 = some 0x0000000078123456 := by rfl
theorem test_V45_23_rorw :
    x10After .rv64 0xFFFFFFFF00000001 0x0000000000000001 0x60C5D53B#32 = some 0xFFFFFFFF80000000 := by rfl
theorem test_V46_2_orcB : x10After .rv32 0x01008000 0 0x2875D513#32 = some 0xFF00FF00 := by rfl
theorem test_V46_5_orcB : x10After .rv64 0x0100000000008000 0 0x2875D513#32 = some 0xFF0000000000FF00 := by rfl
theorem test_V46_7_rev8Rv32 : x10After .rv32 0x12345678 0 0x6985D513#32 = some 0x78563412 := by rfl
theorem test_V46_9_rev8Rv32 : x10After .rv32 0x80000000 0 0x6985D513#32 = some 0x00000080 := by rfl
theorem test_V46_10_rev8Rv64 : x10After .rv64 0x0123456789ABCDEF 0 0x6B85D513#32 = some 0xEFCDAB8967452301 := by rfl
theorem test_V46_12_rev8Rv64 : x10After .rv64 0x0000000012345678 0 0x6B85D513#32 = some 0x7856341200000000 := by rfl
theorem test_V47_13_clmul : x10After .rv32 0x12345678 0x9ABCDEF0 0x0AC59533#32 = some 0x5CD25A80 := by rfl
theorem test_V47_24_clmul :
    x10After .rv64 0x0123456789ABCDEF 0xFEDCBA9876543210 0x0AC59533#32 = some 0x40A0789828C810F0 := by rfl
theorem test_V47_14_clmulh : x10After .rv32 0x12345678 0x9ABCDEF0 0x0AC5B533#32 = some 0x08860E94 := by rfl
theorem test_V47_25_clmulh :
    x10After .rv64 0x0123456789ABCDEF 0xFEDCBA9876543210 0x0AC5B533#32 = some 0x00E038D8688850B0 := by rfl
theorem test_V47_15_clmulr : x10After .rv32 0x12345678 0x9ABCDEF0 0x0AC5A533#32 = some 0x110C1D28 := by rfl
theorem test_V47_26_clmulr :
    x10After .rv64 0x0123456789ABCDEF 0xFEDCBA9876543210 0x0AC5A533#32 = some 0x01C071B0D110A160 := by rfl
theorem test_V48_2_bclr : x10After .rv32 0xFFFFFFFF 0x0000001F 0x48C59533#32 = some 0x7FFFFFFF := by rfl
theorem test_V48_4_bclr :
    x10After .rv64 0xFFFFFFFFFFFFFFFF 0x0000000000000020 0x48C59533#32 = some 0xFFFFFFFEFFFFFFFF := by rfl
theorem test_V48_6_bclriRv32 : x10After .rv32 0xFFFFFFFF 0 0x49F59513#32 = some 0x7FFFFFFF := by rfl
theorem test_V48_10_bclriRv32 : x10After .rv32 0x00000000 0 0x48559513#32 = some 0x00000000 := by rfl
theorem test_V48_9_bclriRv64 : x10After .rv64 0xFFFFFFFFFFFFFFFF 0 0x4BF59513#32 = some 0x7FFFFFFFFFFFFFFF := by rfl
theorem test_V48_8_bclriRv64 : x10After .rv64 0xFFFFFFFFFFFFFFFF 0 0x4A059513#32 = some 0xFFFFFFFEFFFFFFFF := by rfl
theorem test_V48_11_bext : x10After .rv32 0x80000000 0x0000001F 0x48C5D533#32 = some 0x00000001 := by rfl
theorem test_V48_14_bext :
    x10After .rv64 0x0000000100000000 0x0000000000000020 0x48C5D533#32 = some 0x0000000000000001 := by rfl
theorem test_V48_17_bextiRv32 : x10After .rv32 0x80000000 0 0x49F5D513#32 = some 0x00000001 := by rfl
theorem test_V48_16_bextiRv32 : x10After .rv32 0x00000010 0 0x4845D513#32 = some 0x00000001 := by rfl
theorem test_V48_18_bextiRv64 : x10After .rv64 0x8000000000000000 0 0x4BF5D513#32 = some 0x0000000000000001 := by rfl
theorem test_V48_19_bextiRv64 : x10After .rv64 0x8000000000000000 0 0x49F5D513#32 = some 0x0000000000000000 := by rfl
theorem test_V48_21_binv : x10After .rv32 0xFFFFFFFF 0x0000003F 0x68C59533#32 = some 0x7FFFFFFF := by rfl
theorem test_V48_22_binv :
    x10After .rv64 0x0000000000000000 0x000000000000003F 0x68C59533#32 = some 0x8000000000000000 := by rfl
theorem test_V48_25_binviRv32 : x10After .rv32 0x0000FFFF 0 0x69059513#32 = some 0x0001FFFF := by rfl
theorem test_V48_24_binviRv32 : x10After .rv32 0x0000FFFF 0 0x68F59513#32 = some 0x00007FFF := by rfl
theorem test_V48_26_binviRv64 : x10After .rv64 0x0000000000000000 0 0x6BF59513#32 = some 0x8000000000000000 := by rfl
theorem test_V48_27_binviRv64 : x10After .rv64 0x00000000FFFFFFFF 0 0x6A059513#32 = some 0x00000001FFFFFFFF := by rfl
theorem test_V48_29_bset : x10After .rv32 0x00000000 0x00000025 0x28C59533#32 = some 0x00000020 := by rfl
theorem test_V48_30_bset :
    x10After .rv64 0x0000000000000000 0x0000000000000025 0x28C59533#32 = some 0x0000002000000000 := by rfl
theorem test_V48_33_bsetiRv32 : x10After .rv32 0x00000000 0 0x29F59513#32 = some 0x80000000 := by rfl
theorem test_V48_32_bsetiRv32 : x10After .rv32 0x00000000 0 0x28059513#32 = some 0x00000001 := by rfl
theorem test_V48_35_bsetiRv64 : x10After .rv64 0x0000000000000000 0 0x2BF59513#32 = some 0x8000000000000000 := by rfl
theorem test_V48_34_bsetiRv64 : x10After .rv64 0x0000000000000000 0 0x2A059513#32 = some 0x0000000100000000 := by rfl

/-! ## Register overlap (rows O of spec/95_test_vectors.md) and the edges of the step -/

theorem test_O4_sh1add_all_same :
    (match step ((State.start .rv32 [] ((Vector.replicate 31 0#32).set 4 0x12345678#32) 0x1000#32).loadWord
        0x2052A2B3#32) with
      | .next t => some (t.regNat 5#5)
      | _ => none) = some 0x369D0368 := by rfl

/-- R12: an instruction with rd = 0 only advances the pc. -/
theorem test_write_to_x0 :
    (match step (start .rv32 5 6 0x40C5F033#32) with
      | .next t => some (t.regNat 0#5, t.regNat 10#5, t.regNat 11#5, t.regNat 12#5, t.pcNat)
      | _ => none) = some (0, 0, 5, 6, 0x1004) := by rfl

/-- R15: from 2^XLEN - 4 the next pc is 0. -/
theorem test_pc_wraps :
    (match step (startAt .rv64 0xFFFFFFFFFFFFFFFC 0x60059513#32) with
      | .next t => some t.pcNat
      | _ => none) = some 0 := by rfl

/-- Program of two words (R134): both run, in order, and the third fetch is stuck; the mark is kept. -/
theorem test_two_words :
    (let s := (start .rv32 0x0F0 0xFF 0#32).loadWords [0x40C5F533#32, 0x60251513#32]
     let t := observe 4 s
     (t.regNat 10#5, t.pcNat, t.mark)) = (0, 0x1008, .stuckFetch) := by rfl

theorem test_withFetchWord_at_reset :
    (match step (State.reset.withFetchWord 32 0x60059513) with
      | .next t => some (t.regNat 10#5, t.pcNat)
      | _ => none) = some (64, 4) := by rfl

theorem test_withFetchWord_rv32_row_at_reset :
    (match step (State.reset.withFetchWord 32 0x0805C533) with
      | .next t => some (t.xlen, t.pcNat)
      | _ => none) = some (.rv32, 4) := by rfl

theorem test_reset_memory_canonical : State.reset.mem.wf := by decide

/-! ## Witnesses: for each obligation with hypotheses, a state and operands that meet them -/

theorem witness_AddUwAddsZeroExtendedLowWord :
    0x08C5853B#32 &&& 0xFE00707F#32 = 0x0800003B#32 ∧ (start .rv64 1 2 0x08C5853B#32).xlen = .rv64 := by
  exact ⟨by decide, rfl⟩

theorem witness_ShiftAddsSumRs2AndShiftedRs1 :
    0x20C5A533#32 &&& 0xFE00707F#32 = 0x20002033#32 ∧ 0x20C5C533#32 &&& 0xFE00707F#32 = 0x20004033#32 ∧
    0x20C5E533#32 &&& 0xFE00707F#32 = 0x20006033#32 := by decide

theorem witness_ShiftAddUwsSumRs2AndShiftedLowWord :
    0x20C5A53B#32 &&& 0xFE00707F#32 = 0x2000203B#32 ∧ 0x20C5C53B#32 &&& 0xFE00707F#32 = 0x2000403B#32 ∧
    0x20C5E53B#32 &&& 0xFE00707F#32 = 0x2000603B#32 ∧ (start .rv64 1 2 0x20C5A53B#32).xlen = .rv64 := by
  exact ⟨by decide, by decide, by decide, rfl⟩

/-- With the largest shift amount, 63. -/
theorem witness_SlliUwShiftsZeroExtendedLowWord :
    0x0BF5951B#32 &&& 0xFC00707F#32 = 0x0800101B#32 ∧ (start .rv64 1 2 0x0BF5951B#32).xlen = .rv64 := by
  exact ⟨by decide, rfl⟩

/-- With the highest bit of each width. -/
theorem witness_LogicWithInvertedOperandBitByBit :
    0x40C5F533#32 &&& 0xFE00707F#32 = 0x40007033#32 ∧ 0x40C5E533#32 &&& 0xFE00707F#32 = 0x40006033#32 ∧
    0x40C5C533#32 &&& 0xFE00707F#32 = 0x40004033#32 ∧
    31 < (start .rv32 1 2 0#32).xlen.bits ∧ 63 < (start .rv64 1 2 0#32).xlen.bits := by
  exact ⟨by decide, by decide, by decide, by decide, by decide⟩

theorem witness_LeadingZeroCounts :
    0x60059513#32 &&& 0xFFF0707F#32 = 0x60001013#32 ∧ 0x6005951B#32 &&& 0xFFF0707F#32 = 0x6000101B#32 ∧
    (start .rv64 1 2 0x6005951B#32).xlen = .rv64 := by
  exact ⟨by decide, by decide, rfl⟩

theorem witness_TrailingZeroCounts :
    0x60159513#32 &&& 0xFFF0707F#32 = 0x60101013#32 ∧ 0x6015951B#32 &&& 0xFFF0707F#32 = 0x6010101B#32 ∧
    (start .rv64 1 2 0x6015951B#32).xlen = .rv64 := by
  exact ⟨by decide, by decide, rfl⟩

theorem witness_PopulationCounts :
    0x60259513#32 &&& 0xFFF0707F#32 = 0x60201013#32 ∧ 0x6025951B#32 &&& 0xFFF0707F#32 = 0x6020101B#32 ∧
    (start .rv64 1 2 0x6025951B#32).xlen = .rv64 := by
  exact ⟨by decide, by decide, rfl⟩

theorem witness_SignedMaxAndMin :
    0x0AC5E533#32 &&& 0xFE00707F#32 = 0x0A006033#32 ∧ 0x0AC5C533#32 &&& 0xFE00707F#32 = 0x0A004033#32 := by decide

theorem witness_UnsignedMaxAndMin :
    0x0AC5F533#32 &&& 0xFE00707F#32 = 0x0A007033#32 ∧ 0x0AC5D533#32 &&& 0xFE00707F#32 = 0x0A005033#32 := by decide

theorem witness_SignExtensionsCopyTheirTopBit :
    0x60459513#32 &&& 0xFFF0707F#32 = 0x60401013#32 ∧ 0x60559513#32 &&& 0xFFF0707F#32 = 0x60501013#32 ∧
    31 < (start .rv32 1 2 0#32).xlen.bits ∧ 63 < (start .rv64 1 2 0#32).xlen.bits := by
  exact ⟨by decide, by decide, by decide, by decide⟩

/-- The last word is row D7 of the spec's decode vectors, at either width. -/
theorem witness_ZextHKeepsLowHalfword :
    0x0805C533#32 &&& 0xFFF0707F#32 = 0x08004033#32 ∧ 0x0805C53B#32 &&& 0xFFF0707F#32 = 0x0800403B#32 ∧
    (0x0815C533#32).extractLsb' 20 5 ≠ 0#5 ∧ 0x0815C533#32 &&& 0xFE00707F#32 = 0x08004033#32 ∧
    (0x0815C53B#32).extractLsb' 20 5 ≠ 0#5 ∧ 0x0815C53B#32 &&& 0xFE00707F#32 = 0x0800403B#32 ∧
    (start .rv32 1 2 0x0805C533#32).xlen = .rv32 ∧ (start .rv64 1 2 0x0805C53B#32).xlen = .rv64 := by
  exact ⟨by decide, by decide, by decide, by decide, by decide, by decide, rfl, rfl⟩

theorem witness_RegisterRotates :
    0x60C59533#32 &&& 0xFE00707F#32 = 0x60001033#32 ∧ 0x60C5D533#32 &&& 0xFE00707F#32 = 0x60005033#32 := by decide

theorem witness_WordRotatesByRegister :
    0x60C5953B#32 &&& 0xFE00707F#32 = 0x6000103B#32 ∧ 0x60C5D53B#32 &&& 0xFE00707F#32 = 0x6000503B#32 ∧
    (start .rv64 1 2 0x60C5953B#32).xlen = .rv64 := by
  exact ⟨by decide, by decide, rfl⟩

/-- With the largest amount of each row (31 and 63) and the smallest reserved one (32). -/
theorem witness_RoriRotatesRight :
    0x61F5D513#32 &&& 0xFE00707F#32 = 0x60005013#32 ∧ 0x63F5D513#32 &&& 0xFC00707F#32 = 0x60005013#32 ∧
    0x6205D513#32 &&& 0xFE00707F#32 = 0x62005013#32 ∧
    (start .rv32 1 2 0x61F5D513#32).xlen = .rv32 ∧ (start .rv64 1 2 0x63F5D513#32).xlen = .rv64 := by
  exact ⟨by decide, by decide, by decide, rfl, rfl⟩

theorem witness_RoriwRotatesLowWord :
    0x61F5D51B#32 &&& 0xFE00707F#32 = 0x6000501B#32 ∧ (start .rv64 1 2 0x61F5D51B#32).xlen = .rv64 := by
  exact ⟨by decide, rfl⟩

/-- With the highest byte of each width. -/
theorem witness_OrcBFillsNonzeroBytes :
    0x2875D513#32 &&& 0xFFF0707F#32 = 0x28705013#32 ∧
    3 < (start .rv32 1 2 0#32).xlen.bits / 8 ∧ 7 < (start .rv64 1 2 0#32).xlen.bits / 8 := by
  exact ⟨by decide, by decide, by decide⟩

theorem witness_Rev8ReversesBytes :
    0x6985D513#32 &&& 0xFFF0707F#32 = 0x69805013#32 ∧ 0x6B85D513#32 &&& 0xFFF0707F#32 = 0x6B805013#32 ∧
    (start .rv32 1 2 0x6985D513#32).xlen = .rv32 ∧ (start .rv64 1 2 0x6B85D513#32).xlen = .rv64 := by
  exact ⟨by decide, by decide, rfl, rfl⟩

theorem witness_CarrylessMultipliesSliceTheProduct :
    0x0AC59533#32 &&& 0xFE00707F#32 = 0x0A001033#32 ∧ 0x0AC5B533#32 &&& 0xFE00707F#32 = 0x0A003033#32 ∧
    0x0AC5A533#32 &&& 0xFE00707F#32 = 0x0A002033#32 ∧
    31 < (start .rv32 1 2 0#32).xlen.bits ∧ 63 < (start .rv64 1 2 0#32).xlen.bits := by
  exact ⟨by decide, by decide, by decide, by decide, by decide⟩

theorem witness_SingleBitsByRegister :
    0x48C59533#32 &&& 0xFE00707F#32 = 0x48001033#32 ∧ 0x68C59533#32 &&& 0xFE00707F#32 = 0x68001033#32 ∧
    0x28C59533#32 &&& 0xFE00707F#32 = 0x28001033#32 := by decide

theorem witness_BextExtractsOneBit : 0x48C5D533#32 &&& 0xFE00707F#32 = 0x48005033#32 := by decide

theorem witness_SingleBitsByImmediate :
    0x49F59513#32 &&& 0xFE00707F#32 = 0x48001013#32 ∧ 0x4BF59513#32 &&& 0xFC00707F#32 = 0x48001013#32 ∧
    0x4A059513#32 &&& 0xFE00707F#32 = 0x4A001013#32 ∧
    0x69F59513#32 &&& 0xFE00707F#32 = 0x68001013#32 ∧ 0x6BF59513#32 &&& 0xFC00707F#32 = 0x68001013#32 ∧
    0x6A059513#32 &&& 0xFE00707F#32 = 0x6A001013#32 ∧
    0x29F59513#32 &&& 0xFE00707F#32 = 0x28001013#32 ∧ 0x2BF59513#32 &&& 0xFC00707F#32 = 0x28001013#32 ∧
    0x2BF01513#32 &&& 0xFE00707F#32 = 0x2A001013#32 ∧
    (start .rv32 1 2 0x49F59513#32).xlen = .rv32 ∧ (start .rv64 1 2 0x4BF59513#32).xlen = .rv64 := by
  exact ⟨by decide, by decide, by decide, by decide, by decide, by decide, by decide, by decide, by decide, rfl, rfl⟩

theorem witness_BextiExtractsOneBit :
    0x49F5D513#32 &&& 0xFE00707F#32 = 0x48005013#32 ∧ 0x4BF5D513#32 &&& 0xFC00707F#32 = 0x48005013#32 ∧
    0x4A05D513#32 &&& 0xFE00707F#32 = 0x4A005013#32 ∧
    (start .rv32 1 2 0x49F5D513#32).xlen = .rv32 ∧ (start .rv64 1 2 0x4BF5D513#32).xlen = .rv64 := by
  exact ⟨by decide, by decide, by decide, rfl, rfl⟩

/-- Two states of each width that agree on `x11` and `x12` and differ in `x1`, the pc and memory. -/
theorem witness_EveryInstructionCompletesFromItsSourcesAlone :
    (Instr.andn 10#5 11#5 12#5).WellFormed (start .rv32 7 7 0#32).xlen ∧
    (start .rv32 7 7 0#32).xlen = (startAt .rv32 0x20 1#32).xlen ∧
    (∀ r, r ∈ (Instr.andn 10#5 11#5 12#5).sources →
      (start .rv32 7 7 0#32).regNat r = (startAt .rv32 0x20 1#32).regNat r) ∧
    (Instr.bextiRv64 0#5 11#5 63#6).WellFormed (start .rv64 7 7 0#32).xlen ∧
    (start .rv64 7 7 0#32).xlen = (startAt .rv64 0x20 1#32).xlen ∧
    (∀ r, r ∈ (Instr.bextiRv64 0#5 11#5 63#6).sources →
      (start .rv64 7 7 0#32).regNat r = (startAt .rv64 0x20 1#32).regNat r) ∧
    (start .rv32 7 7 0#32).regNat 1#5 ≠ (startAt .rv32 0x20 1#32).regNat 1#5 := by
  exact ⟨by decide, rfl, by decide, by decide, rfl, by decide, by decide⟩

/-- At the amounts where the clauses meet: 31 and 32. -/
theorem witness_OtherWidthRowsDoWhatTheirWordDoes :
    (start .rv32 1 2 0#32).xlen = .rv32 ∧ 32 ≤ (32#6).toNat ∧ (start .rv64 1 2 0#32).xlen = .rv64 ∧
    (31#6).toNat < 32 := by
  exact ⟨rfl, by decide, rfl, by decide⟩

theorem witness_RegisterZeroIsHardwired :
    31#5 ≠ 0#5 ∧ 30#5 ≠ 31#5 ∧ (Instr.addUw 0#5 1#5 2#5).WellFormed (start .rv64 1 2 0#32).xlen ∧
    (Instr.addUw 0#5 1#5 2#5).dest = 0#5 ∧ (Instr.rev8Rv32 0#5 1#5).WellFormed (start .rv32 1 2 0#32).xlen ∧
    (Instr.rev8Rv32 0#5 1#5).dest = 0#5 := by
  exact ⟨by decide, by decide, by decide, rfl, by decide, rfl⟩

theorem witness_OverlappingRegistersUseOldValues : 1#5 ≠ 0#5 ∧ 31#5 ≠ 0#5 := by decide

theorem witness_DecodeOfEncodeIsTheInstruction :
    (Instr.slliUw 31#5 31#5 63#6).WellFormed .rv64 ∧ (Instr.rev8Rv32 0#5 0#5).WellFormed .rv32 := by decide

theorem witness_EncodeOfDecodeIsTheWord :
    decodeWord .rv64 0x63F5D513#32 = .ok (.roriRv64 10#5 11#5 63#6) ∧
    decodeWord .rv32 0x61F5D513#32 = .ok (.roriRv32 10#5 11#5 31#5) := by
  exact ⟨rfl, rfl⟩

/-- Rows 1 and 50, both of which exist at XLEN = 64, and rows 2 and 34, both of which exist at 32. -/
theorem witness_RowsOfOneWidthAreDisjoint :
    (rows[0]?.map (fun r => r.admits .rv64), rows[49]?.map (fun r => r.admits .rv64),
      rows[1]?.map (fun r => r.admits .rv32), rows[33]?.map (fun r => r.admits .rv32)) =
    (some true, some true, some true, some true) := by rfl

theorem witness_RejectedWordsAreRefusedByName :
    ((start .rv32 1 2 0x6205D513#32).mark = .clear ∧ (start .rv32 1 2 0x6205D513#32).xlen = .rv32 ∧
      (start .rv32 1 2 0x6205D513#32).fetch = some 0x6205D513#32 ∧ IsReservedWord .rv32 0x6205D513#32) ∧
    ((start .rv64 1 2 0x6205D51B#32).mark = .clear ∧ (start .rv64 1 2 0x6205D51B#32).xlen = .rv64 ∧
      (start .rv64 1 2 0x6205D51B#32).fetch = some 0x6205D51B#32 ∧
      (∀ r, r ∈ rows → r.selects .rv64 0x6205D51B#32 = false) ∧ ¬IsReservedWord .rv64 0x6205D51B#32) := by
  have h : rows.all (fun r => r.selects .rv64 0x6205D51B#32 == false) = true := by rfl
  exact ⟨⟨rfl, rfl, rfl, by unfold IsReservedWord; decide⟩, rfl, rfl, rfl,
    fun r hr => by simpa using List.all_eq_true.mp h r hr, by unfold IsReservedWord; decide⟩

theorem witness_CommonFieldPositions :
    (Instr.zextHRv64 1#5 2#5).mnemonic = (Instr.zextHRv32 3#5 4#5).mnemonic := by rfl

theorem witness_RoriwHasNoSixthShiftBit :
    ((0x61F5D51B#32).extractLsb' 0 7 = 0x1b#7 ∧ (0x61F5D51B#32).extractLsb' 12 3 = 5#3 ∧
      (0x61F5D51B#32).extractLsb' 25 7 = 0x30#7) ∧
    ((0x6205D51B#32).extractLsb' 0 7 = 0x1b#7 ∧ (0x6205D51B#32).extractLsb' 12 3 = 5#3 ∧
      (0x6205D51B#32).extractLsb' 26 6 = 0x18#6 ∧ (0x6205D51B#32).getLsbD 25 = true) := by decide

/-- The RV64 row is the last of the seven, with the largest shift amount. -/
theorem witness_WordFormsExistOnlyAt64 :
    (Instr.rorw 1#5 2#5 3#5).mnemonic = "rorw" ∧ (Instr.bsetiRv32 1#5 2#5 3#5).mnemonic = "bseti" ∧
    Instr.bsetiRv64 31#5 31#5 63#6 ∈ [Instr.zextHRv64 31#5 31#5, .rev8Rv64 31#5 31#5, .roriRv64 31#5 31#5 63#6,
      .bclriRv64 31#5 31#5 63#6, .bextiRv64 31#5 31#5 63#6, .binviRv64 31#5 31#5 63#6, .bsetiRv64 31#5 31#5 63#6] ∧
    decodeWord .rv64 0x60C5D53B#32 = .ok (.rorw 10#5 11#5 12#5) := by
  exact ⟨rfl, rfl, by decide, rfl⟩

theorem witness_StepRunsTheDecodedInstruction :
    (start .rv64 1 2 0x40C5F533#32).mark = .clear ∧ (start .rv64 1 2 0x40C5F533#32).fetch = some 0x40C5F533#32 ∧
    decodeWord (start .rv64 1 2 0x40C5F533#32).xlen 0x40C5F533#32 = .ok (.andn 10#5 11#5 12#5) := by
  exact ⟨rfl, rfl, rfl⟩

/-- Fetches that wrap and that miss their last byte only. -/
theorem witness_FetchIsLittleEndianOrStuck :
    (startAt .rv32 0xFFFFFFFE 0x12345678#32).fetch = some 0x12345678#32 ∧
    (startAt .rv32 0xFFFFFFFE 0x12345678#32).mem.read 1 = some 0x12#8 ∧
    (State.reset.mark = .clear ∧ (3 : Nat) < 4 ∧ State.reset.mem.read 3 = none) ∧
    (State.start .rv32 [(0, 1#8), (1, 2#8), (2, 3#8)] (Vector.replicate 31 0#32) 0#32).fetch = none := by
  exact ⟨rfl, rfl, ⟨rfl, by decide, rfl⟩, rfl⟩

theorem witness_StepHasExactlyTheFourOutcomes :
    (State.reset.mark = .clear ∧ State.reset.fetch = none) ∧
    ((start .rv32 1 2 0x40C5F533#32).mark = .clear ∧ (start .rv32 1 2 0x40C5F533#32).fetch = some 0x40C5F533#32 ∧
      rows[8]?.map (fun r => r.selects .rv32 0x40C5F533#32) = some true) ∧
    ((start .rv32 1 2 0x6205D513#32).mark = .clear ∧ (start .rv32 1 2 0x6205D513#32).fetch = some 0x6205D513#32 ∧
      rows.all (fun r => !r.selects .rv32 0x6205D513#32) = true ∧ IsReservedWord .rv32 0x6205D513#32) ∧
    ((start .rv64 1 2 0x6205D51B#32).mark = .clear ∧ (start .rv64 1 2 0x6205D51B#32).fetch = some 0x6205D51B#32 ∧
      rows.all (fun r => !r.selects .rv64 0x6205D51B#32) = true ∧ ¬IsReservedWord .rv64 0x6205D51B#32) ∧
    (advance State.reset).mark ≠ .clear := by
  exact ⟨⟨rfl, rfl⟩, ⟨rfl, rfl, rfl⟩, ⟨rfl, rfl, rfl, by unfold IsReservedWord; decide⟩,
    ⟨rfl, rfl, rfl, by unfold IsReservedWord; decide⟩, by decide⟩

/-- At the top of the address space, at both widths. -/
theorem witness_PcAdvancesByFourAndWraps :
    (∃ t, step (startAt .rv32 0xFFFFFFFC 0x60059513#32) = .next t) ∧
    (startAt .rv32 0xFFFFFFFC 0x60059513#32).pcNat = 2 ^ 32 - 4 ∧
    (∃ t, step (startAt .rv64 0xFFFFFFFFFFFFFFFC 0x60059513#32) = .next t) ∧
    (startAt .rv64 0xFFFFFFFFFFFFFFFC 0x60059513#32).pcNat = 2 ^ 64 - 4 := by
  exact ⟨next_of_isNext rfl, rfl, next_of_isNext rfl, rfl⟩

theorem wellFormed_start : (start .rv32 1 2 0x40C5F533#32).WF := ⟨by decide, by decide, by decide⟩

theorem witness_StepKeepsWellFormedness :
    (start .rv32 1 2 0x40C5F533#32).WF ∧ ∃ t, step (start .rv32 1 2 0x40C5F533#32) = .next t :=
  ⟨wellFormed_start, next_of_isNext rfl⟩

theorem witness_PcStaysAMultipleOfFour :
    (start .rv32 1 2 0x40C5F533#32).IsStart ∧ ∃ t, runFor 1 (start .rv32 1 2 0x40C5F533#32) = .next t :=
  ⟨⟨wellFormed_start, rfl⟩, next_of_isNext rfl⟩

theorem witness_BoundedRunAdvancesPc :
    ∃ t, runFor 2 ((start .rv64 1 2 0#32).loadWords [0x40C5F533#32, 0x60251513#32]) = .next t :=
  next_of_isNext rfl

/-- Both sides hold for one step and fail for two. -/
theorem witness_SafeRunsAreStraightLine :
    (start .rv32 1 2 0x40C5F533#32).mark = .clear ∧ SafeFor 1 (start .rv32 1 2 0x40C5F533#32) ∧
    ¬SafeFor 2 (start .rv32 1 2 0x40C5F533#32) := by
  refine ⟨rfl, next_of_isNext rfl, ?_⟩
  have h : runFor 2 (start .rv32 1 2 0x40C5F533#32) = .fault .stuckFetch := by rfl
  rintro ⟨t, ht⟩
  rw [h] at ht
  cases ht

theorem witness_StoppedRunKeepsItsMark :
    (advance State.reset).mark ≠ .clear ∧
    ((start .rv32 1 2 0x40C5F533#32).mark = .clear ∧
      (∃ t, runFor 1 (start .rv32 1 2 0x40C5F533#32) = .next t) ∧
      runFor 2 (start .rv32 1 2 0x40C5F533#32) = .fault .stuckFetch) ∧
    ((start .rv32 1 2 0x6205D513#32).mark = .clear ∧
      runFor 3 (start .rv32 1 2 0x6205D513#32) = .refused .reservedEncoding) := by
  exact ⟨by decide, ⟨rfl, next_of_isNext rfl, rfl⟩, rfl, rfl⟩

theorem witness_StartStateHoldsItsArguments :
    (Memory.wf [(0, 1#8), (4294967295, 2#8)]) ∧ (∀ c ∈ [(0, 1#8), (4294967295, 2#8)], c.1 < 2 ^ Xlen.rv32.bits) ∧
    (0xFFFFFFFC#32).toNat % 4 = 0 ∧ (start .rv64 1 2 0#32).mark = .clear := by
  exact ⟨by decide, by decide, by decide, rfl⟩

/-- An address just past the fetched word, and a well-formed state. -/
theorem witness_PlacedWordIsFetched :
    (∀ k, k < 4 → 0x1004 ≠ ((start .rv32 1 2 0x40C5F533#32).pcNat + k) % 2 ^ (start .rv32 1 2 0x40C5F533#32).xlen.bits) ∧
    (start .rv32 1 2 0x40C5F533#32).WF :=
  ⟨by decide, wellFormed_start⟩

theorem witness_PlacedInstructionIsRunNext :
    decodeTableWord 32 0x08C5853B = some (.addUw 10#5 11#5 12#5) ∧
    decodeTableWord 32 0x6985D513 = some (.rev8Rv32 10#5 11#5) := by
  exact ⟨rfl, rfl⟩

theorem witness_CarrylessSlicesEqualTheSourcesLoops : 0 < 1 ∧ 0 < Xlen.rv64.bits := by decide

theorem witness_ClmulrIsReversedClmulOfReversed : 0 < 1 ∧ 0 < Xlen.rv64.bits := by decide

theorem witness_CarrylessProductIsSymmetric : 0 < 1 ∧ 0 < Xlen.rv64.bits := by decide

theorem witness_LeftRotateIsRightRotate : 0 < Xlen.rv32.bits ∧ 63 < Xlen.rv64.bits := by decide

theorem witness_CountingIdentities : 1#64 ≠ 0#64 ∧ 0x80000000#32 ≠ 0#32 := by decide

theorem witness_SingleBitIdentities :
    63 < Xlen.rv64.bits ∧ extractBit 0#64 63 = 0#64 ∧ extractBit 0x8000000000000000#64 63 = 1#64 := by decide

end Sys2Proof.Machine.Tests
end

/-! # Every instruction completes from its sources alone (O24) -/

namespace Sys2Proof.Machine

/-- Equal register numbers are equal register values. -/
theorem reg_eq_of_regNat_eq {x : Xlen} {h h' : Hart x} {m m' : Memory} {k k' : Mark} {r : Reg}
    (e : State.regNat ⟨x, h, m, k⟩ r = State.regNat ⟨x, h', m', k'⟩ r) : h.reg r = h'.reg r :=
  BitVec.eq_of_toNat_eq e

/-- An instruction of one width completes on a hart of that width. -/
theorem Completes.of_onlyOn {i : Instr} {s : State} {x : Xlen} {v : XWord s.xlen} (hx : s.xlen = x)
    (h : exec i s = s.onlyOn x (.next (s.retire i.dest v))) : Completes i s v.toNat :=
  .of_retire (h.trans (State.onlyOn_same hx _))

/-- No shift amount is reserved at XLEN = 64 (R45). -/
@[simp] theorem State.unlessReserved_rv64 {s : State} (hx : s.xlen = .rv64) (shamt : BitVec 6) (out : Out) :
    s.unlessReserved shamt out = out :=
  if_neg fun reserved => Xlen.noConfusion (hx.symm.trans reserved.1)

/-- The RV64 row of a shift-immediate mnemonic completes on a hart of XLEN 64. -/
theorem Completes.of_unlessReserved {i : Instr} {s : State} {shamt : BitVec 6} {v : XWord s.xlen}
    (hx : s.xlen = .rv64) (h : exec i s = s.unlessReserved shamt (.next (s.retire i.dest v))) :
    Completes i s v.toNat :=
  .of_retire (h.trans (State.unlessReserved_rv64 hx _ _))

/-- Two harts of one width whose registers agree on the sources write the same value, whatever memory and mark are.
The three groups are the three guards that stand before the retirement: none, the row's one width, and the reserved
shift amounts. -/
theorem completes_same_of_sources_agree {i : Instr} {x : Xlen} {h h' : Hart x} (m m' : Memory) (k k' : Mark)
    (wf : i.WellFormed x) (agree : ∀ r ∈ i.sources, h.reg r = h'.reg r) :
    ∃ v, Completes i ⟨x, h, m, k⟩ v ∧ Completes i ⟨x, h', m', k'⟩ v := by
  cases i with
    simp only [Instr.sources, List.mem_cons, List.not_mem_nil, or_false, forall_eq_or_imp, forall_eq] at agree
  | sh1add | sh2add | sh3add | andn | orn | xnor | clz | ctz | cpop | max | maxu | min | minu | sextB | sextH
  | rol | ror | roriRv32 | orcB | clmul | clmulh | clmulr | bclr | bclriRv32 | bext | bextiRv32 | binv | binviRv32
  | bset | bsetiRv32 =>
    refine ⟨_, .of_retire rfl, ?_⟩
    simp only [State.reg, agree]
    exact .of_retire rfl
  | addUw | sh1addUw | sh2addUw | sh3addUw | slliUw | clzw | ctzw | cpopw | zextHRv32 | zextHRv64 | rolw | roriw
  | rorw | rev8Rv32 | rev8Rv64 =>
    have hx := eq_of_beq wf
    refine ⟨_, .of_onlyOn hx rfl, ?_⟩
    simp only [State.reg, agree]
    exact .of_onlyOn hx rfl
  | roriRv64 | bclriRv64 | bextiRv64 | binviRv64 | bsetiRv64 =>
    have hx := eq_of_beq wf
    refine ⟨_, .of_unlessReserved hx rfl, ?_⟩
    simp only [State.reg, agree]
    exact .of_unlessReserved hx rfl

/-- Settles O24: the states are two harts of one width, whose registers agree where the instruction reads. -/
theorem everyInstructionCompletesFromItsSourcesAlone :
    Obligations.EveryInstructionCompletesFromItsSourcesAlone := by
  rintro i ⟨x, h, m, k⟩ ⟨x', h', m', k'⟩ wf hx agree
  cases (hx : x = x')
  exact completes_same_of_sources_agree m m' k k' wf fun r hr => reg_eq_of_regNat_eq (agree r hr)

end Sys2Proof.Machine

/-! # The hard-wired zero register and the program counter (O27, O40) -/

namespace Sys2Proof.Machine

/-- An instruction of the hart's width always executes: it retires some value in its destination (R8). -/
theorem exec_of_wellFormed {i : Instr} {s : State} (wf : i.WellFormed s.xlen) :
    ∃ v, exec i s = .next (s.retire i.dest v) := by
  obtain ⟨_, ⟨t, ht, _⟩, _⟩ :=
    completes_same_of_sources_agree s.mem s.mem s.mark s.mark wf fun r _ => Eq.refl (s.hart.reg r)
  obtain ⟨v, rfl⟩ := exec_next ht
  exact ⟨v, ht⟩

/-- Retiring into `x0` discards the value and only advances the `pc` (R12). -/
@[simp] theorem State.retire_zero (s : State) (v : XWord s.xlen) :
    s.retire 0#5 v = { s with hart := s.hart.advance } := rfl

/-- Settles O27: the register file's read and write laws, and for `rd` = 0 the value that the instruction retires is
discarded. -/
theorem registerZeroIsHardwired : Obligations.RegisterZeroIsHardwired := by
  refine ⟨fun _ h _ v => ⟨h.reg_zero, h.setReg_zero v, h.reg_setReg_same v, fun _ => h.reg_setReg_other v⟩, ?_⟩
  intro i s wf hrd
  obtain ⟨v, hv⟩ := exec_of_wellFormed wf
  rw [hv, hrd, State.retire_zero]
  rfl

/-- An executed step is the retirement of one value in one register. -/
theorem step_next_retire {s t : State} (h : step s = .next t) : ∃ rd v, t = s.retire rd v := by
  obtain ⟨_, _, i, _, _, hexec⟩ := step_next h
  exact ⟨i.dest, exec_next hexec⟩

/-- Settles O40 by the `pc` clause of the retirement's frame; from 2^XLEN - 4 the sum is 2^XLEN, which wraps to 0. -/
theorem pcAdvancesByFourAndWraps : Obligations.PcAdvancesByFourAndWraps := by
  intro s t h
  obtain ⟨rd, v, rfl⟩ := step_next_retire h
  have hpc := (s.retire_writes rd v).pc
  refine ⟨hpc, fun top => ?_⟩
  have hfour : 4 ≤ 2 ^ s.xlen.bits := by cases s.xlen <;> decide
  rw [hpc, top, Nat.sub_add_cancel hfour, Nat.mod_self]

end Sys2Proof.Machine

/-! # Fetch from memory, and memory along a run (O38, O43) -/

namespace Sys2Proof

/-! ## The bytes of a word (R22) -/

/-- The bits of a word made of four bytes, byte by byte from bit 0. -/
theorem getLsbD_wordOfBytes (b0 b1 b2 b3 : Byte) (j : Nat) : (wordOfBytes b0 b1 b2 b3).getLsbD j =
    if j < 8 then b0.getLsbD j else if j < 16 then b1.getLsbD (j - 8) else if j < 24 then b2.getLsbD (j - 16)
    else b3.getLsbD (j - 24) := by
  unfold wordOfBytes
  simp only [BitVec.getLsbD_append]
  grind

/-- Bit `j` of byte `k` of a word is the word's bit `8k + j`. -/
theorem getLsbD_byteOfWord (w : InstWord) (k j : Nat) :
    (byteOfWord w k).getLsbD j = (decide (j < 8) && w.getLsbD (8 * k + j)) :=
  BitVec.getLsbD_extractLsb' _ _ _ _

/-- The bytes of a word made of four bytes, the byte at the lowest address in the lowest bits. -/
theorem byteOfWord_wordOfBytes (b0 b1 b2 b3 : Byte) :
    byteOfWord (wordOfBytes b0 b1 b2 b3) 0 = b0 ∧ byteOfWord (wordOfBytes b0 b1 b2 b3) 1 = b1 ∧
    byteOfWord (wordOfBytes b0 b1 b2 b3) 2 = b2 ∧ byteOfWord (wordOfBytes b0 b1 b2 b3) 3 = b3 := by
  refine ⟨?_, ?_, ?_, ?_⟩ <;>
  · refine BitVec.eq_of_getLsbD_eq fun j hj => ?_
    rw [getLsbD_byteOfWord, getLsbD_wordOfBytes]
    interval_cases j <;> simp

/-- A word is its four bytes in little-endian order. -/
theorem wordOfBytes_byteOfWord (w : InstWord) :
    wordOfBytes (byteOfWord w 0) (byteOfWord w 1) (byteOfWord w 2) (byteOfWord w 3) = w := by
  refine word_ext fun j hj => ?_
  simp only [getLsbD_wordOfBytes, getLsbD_byteOfWord]
  interval_cases j <;> simp

namespace Machine

/-! ## Fetch -/

/-- The addresses of the fetch as numbers: `pc + k` modulo 2^XLEN (R21, R122). -/
theorem State.fetchAddr_eq (s : State) (k : Nat) : s.fetchAddr k = (s.pcNat + k) % 2 ^ s.xlen.bits := by
  simp only [State.fetchAddr, State.pcNat, BitVec.toNat_add, BitVec.toNat_ofNat, Nat.add_mod_mod]

/-- Four bytes in memory are fetched as one word. -/
theorem State.fetch_of_reads {s : State} {b : Nat → Byte} (h : ∀ k, k < 4 → s.mem.read (s.fetchAddr k) = some (b k)) :
    s.fetch = some (wordOfBytes (b 0) (b 1) (b 2) (b 3)) := by
  simp only [State.fetch, h 0, h 1, h 2, h 3, Nat.reduceLT]

/-- The fetched word is fixed byte by byte (R22). -/
theorem State.fetch_eq_some_iff (s : State) (w : InstWord) :
    s.fetch = some w ↔ ∀ k, k < 4 → s.mem.read (s.fetchAddr k) = some (byteOfWord w k) := by
  constructor
  · intro h k hk
    obtain ⟨b0, b1, b2, b3, h0, h1, h2, h3, rfl⟩ := State.fetch_some h
    obtain ⟨e0, e1, e2, e3⟩ := byteOfWord_wordOfBytes b0 b1 b2 b3
    interval_cases k
    · rw [h0, e0]
    · rw [h1, e1]
    · rw [h2, e2]
    · rw [h3, e3]
  · intro h
    rw [State.fetch_of_reads h, wordOfBytes_byteOfWord]

/-- The fetch fails exactly when one of its four addresses holds no memory (R21). -/
theorem State.fetch_eq_none_iff (s : State) :
    s.fetch = none ↔ ∃ k, k < 4 ∧ s.mem.read (s.fetchAddr k) = none := by
  constructor
  · intro h
    by_contra! present
    have reads : ∀ k, k < 4 → s.mem.read (s.fetchAddr k) = some ((s.mem.read (s.fetchAddr k)).getD 0) :=
      fun k hk => by
        obtain ⟨b, hb⟩ := Option.ne_none_iff_exists'.mp (present k hk)
        rw [hb, Option.getD_some]
    rw [State.fetch_of_reads reads] at h
    cases h
  · rintro ⟨k, hk, missing⟩
    refine Option.eq_none_iff_forall_ne_some.mpr fun w hw => ?_
    rw [(s.fetch_eq_some_iff w).mp hw k hk] at missing
    cases missing

/-! ## The stuck step -/

/-- What `onlyOn` does to an outcome: it lets it pass or refuses. -/
theorem State.onlyOn_pass_or_refuse (s : State) (x : Xlen) (out : Out) :
    s.onlyOn x out = out ∨ ∃ r, s.onlyOn x out = .refused r := by
  unfold State.onlyOn
  split
  · exact .inl rfl
  · exact .inr ⟨_, rfl⟩

/-- What `unlessReserved` does to an outcome: it lets it pass or refuses. -/
theorem State.unlessReserved_pass_or_refuse (s : State) (shamt : BitVec 6) (out : Out) :
    s.unlessReserved shamt out = out ∨ ∃ r, s.unlessReserved shamt out = .refused r := by
  unfold State.unlessReserved
  split
  · exact .inr ⟨_, rfl⟩
  · exact .inl rfl

/-- All an instruction can do: retire one value in its destination, or be refused. It raises no fault (R120). The three
groups are the guards before the retirement: none, the row's one width, and the reserved shift amounts. -/
theorem exec_retires_or_refuses (i : Instr) (s : State) :
    (∃ v, exec i s = .next (s.retire i.dest v)) ∨ ∃ r, exec i s = .refused r := by
  cases i with
  | sh1add | sh2add | sh3add | andn | orn | xnor | clz | ctz | cpop | max | maxu | min | minu | sextB | sextH
  | rol | ror | roriRv32 | orcB | clmul | clmulh | clmulr | bclr | bclriRv32 | bext | bextiRv32 | binv | binviRv32
  | bset | bsetiRv32 => exact .inl ⟨_, rfl⟩
  | addUw | sh1addUw | sh2addUw | sh3addUw | slliUw | clzw | ctzw | cpopw | zextHRv32 | zextHRv64 | rolw | roriw
  | rorw | rev8Rv32 | rev8Rv64 => exact (s.onlyOn_pass_or_refuse _ _).imp_left (⟨_, ·⟩)
  | roriRv64 | bclriRv64 | bextiRv64 | binviRv64 | bsetiRv64 =>
    exact (s.unlessReserved_pass_or_refuse _ _).imp_left (⟨_, ·⟩)

/-- A fetched word never ends in a fault: it executes or is refused (R122). -/
theorem executeWord_ne_fault (w : InstWord) (s : State) (f : Fault) : executeWord w s ≠ .fault f := by
  unfold executeWord
  split
  next i _ =>
    obtain ⟨v, hv⟩ | ⟨r, hr⟩ := exec_retires_or_refuses i s
    · rw [hv]; exact nofun
    · rw [hr]; exact nofun
  next r _ => cases r <;> exact nofun

/-- A step with a clear mark and a failed fetch is stuck. -/
theorem step_of_fetch_none {s : State} (hm : s.mark = .clear) (hf : s.fetch = none) : step s = .fault .stuckFetch := by
  simp only [step, hm, Mark.stop, hf]

/-- A step with a clear mark decodes and executes the word it fetched. -/
theorem step_of_fetch_some {s : State} {w : InstWord} (hm : s.mark = .clear) (hf : s.fetch = some w) :
    step s = executeWord w s := by
  simp only [step, hm, Mark.stop, hf]

/-- With a clear mark, a failed fetch is the one reason for a stuck step. -/
theorem step_stuck_iff {s : State} (hm : s.mark = .clear) : step s = .fault .stuckFetch ↔ s.fetch = none := by
  refine ⟨fun stuck => ?_, step_of_fetch_none hm⟩
  refine Option.eq_none_iff_forall_ne_some.mpr fun w hw => ?_
  exact executeWord_ne_fault w s _ ((step_of_fetch_some hm hw).symm.trans stuck)

/-- Settles O38: the two fetch laws at the addresses of the fetch, and a stuck step is a failed fetch. -/
theorem fetchIsLittleEndianOrStuck : Obligations.FetchIsLittleEndianOrStuck := by
  intro s
  simp only [← State.fetchAddr_eq]
  exact ⟨s.fetch_eq_some_iff, fun hm => (step_stuck_iff hm).trans s.fetch_eq_none_iff⟩

/-! ## Memory along a run -/

/-- One step of an observed run leaves memory as it is: an executed step retires a value in a register, and any other
step changes the mark alone (R20, R122). -/
@[simp] theorem advance_mem (s : State) : (advance s).mem = s.mem := by
  unfold advance
  split
  next t ht =>
    obtain ⟨rd, v, rfl⟩ := step_next_retire ht
    exact s.retire_mem rd v
  next => rfl
  next => rfl

/-- An observed run of any length leaves memory as it is. -/
@[simp] theorem observe_mem (n : Nat) (s : State) : (observe n s).mem = s.mem := by
  induction n generalizing s with
  | zero => rfl
  | succ n ih => exact (ih (advance s)).trans (advance_mem s)

/-- Settles O43: from a start state, the memory that stays is its argument. -/
theorem memoryIsConstantDuringARun : Obligations.MemoryIsConstantDuringARun :=
  ⟨fun _ m regs pc0 n => (observe_mem n _).trans (State.start_mem m regs pc0), observe_mem⟩

end Machine

end Sys2Proof

/-! # The opcode map and the decoder (O32 to O35) -/

namespace Sys2Proof

/-! ## Words that match two patterns (R38) -/

/-- Two pairs of a pattern and a mask differ in a bit that both masks cover. -/
abbrev Clash (p m q n : InstWord) : Prop := (p ^^^ q) &&& (m &&& n) ≠ 0#32

/-- No word matches both of two patterns that clash. -/
theorem Clash.ne {p m q n w : InstWord} (clash : Clash p m q n) (hp : w &&& m = p) : w &&& n ≠ q := by
  rintro rfl
  subst hp
  refine clash (word_ext fun k _ => ?_)
  simp only [BitVec.getLsbD_and, BitVec.getLsbD_xor, BitVec.getLsbD_zero]
  cases w.getLsbD k <;> cases m.getLsbD k <;> simp

/-- A field that the mask covers is the pattern's. -/
theorem field_of_masked {w m p : InstWord} {start len : Nat} (h : w &&& m = p)
    (covers : m.extractLsb' start len = BitVec.allOnes len) : w.extractLsb' start len = p.extractLsb' start len := by
  rw [← h, BitVec.extractLsb'_and, covers, BitVec.and_allOnes]

/-- The fixed fields of formats R and I5 under their mask (R33, R35). -/
theorem and_maskR (w : InstWord) :
    w &&& maskR = encodeR (w.extractLsb' 25 7) (w.extractLsb' 12 3) (w.extractLsb' 0 7) 0#5 0#5 0#5 := by
  refine word_ext fun k hk => ?_
  rw [BitVec.getLsbD_and, getLsbD_encodeR]
  interval_cases k <;> simp [maskR]

/-! ## The rows of the table -/

/-- When a word selects a row (R37). -/
theorem Row.selects_iff (r : Row) (x : Xlen) (w : InstWord) :
    r.selects x w = true ↔ r.admits x = true ∧ w &&& r.mask = r.pattern := by
  simp only [Row.selects, Bool.and_eq_true, beq_iff_eq]

/-- A word that matches a pattern selects no row that clashes with it. -/
theorem Clash.not_selects {x : Xlen} {w p m : InstWord} {r : Row} (hw : w &&& m = p)
    (clash : r.admits x = true → Clash p m r.pattern r.mask) : r.selects x w = false := by
  refine Bool.eq_false_iff.mpr fun hsel => ?_
  obtain ⟨hadmits, hmatch⟩ := (r.selects_iff x w).mp hsel
  exact (clash hadmits).ne hw hmatch

/-- A row makes of a word an instruction with the row's mnemonic, and with `rd` and `rs1` where R31 puts them. -/
theorem Row.build_fields {r : Row} (hr : r ∈ rows) (w : InstWord) :
    (r.build w).mnemonic = r.mnemonic ∧ (r.build w).dest = rdOf w ∧ (r.build w).sources.head? = some (rs1Of w) := by
  have table : rows.map (fun r w => ((r.build w).mnemonic, (r.build w).dest, (r.build w).sources.head?)) =
      rows.map (fun r w => (r.mnemonic, rdOf w, some (rs1Of w))) := rfl
  simpa only [Prod.mk.injEq] using congrFun (List.map_inj_left.mp table r hr) w

/-- Every mask covers the major opcode and funct3, and the opcode is one of the four of R32. -/
theorem Row.opcode_and_funct3_fixed : ∀ r ∈ rows, r.mask.extractLsb' 0 7 = BitVec.allOnes 7 ∧
    r.mask.extractLsb' 12 3 = BitVec.allOnes 3 ∧
    r.pattern.extractLsb' 0 7 ∈ [0x33#7, 0x3b#7, 0x13#7, 0x1b#7] := by decide +kernel

/-- Two rows of one mnemonic have one funct3. -/
theorem Row.funct3_of_mnemonic : ∀ r ∈ rows, ∀ q ∈ rows, r.mnemonic = q.mnemonic →
    r.pattern.extractLsb' 12 3 = q.pattern.extractLsb' 12 3 := by decide +kernel

/-- Two rows that share an XLEN clash (R38). -/
theorem rows_pairwise_clash (x : Xlen) : rows.Pairwise fun r q =>
    r.admits x = true → q.admits x = true → Clash r.pattern r.mask q.pattern q.mask := by
  cases x <;> decide +kernel

/-- At one XLEN a word selects at most one row (R38). -/
theorem Row.selects_unique {x : Xlen} {w : InstWord} {r q : Row} (hr : r ∈ rows) (hq : q ∈ rows)
    (hrw : r.selects x w = true) (hqw : q.selects x w = true) : r = q := by
  have unique : rows.Pairwise fun r q => r.selects x w = true → q.selects x w = true → r = q := by
    refine (rows_pairwise_clash x).imp fun {r q} clash hrw hqw => ?_
    obtain ⟨hadmits, hmatch⟩ := (r.selects_iff x w).mp hrw
    exact Bool.noConfusion (hqw.symm.trans (Clash.not_selects hmatch (clash hadmits)))
  exact unique.forall_of_forall_of_flip (fun _ _ _ _ => rfl) (unique.imp fun h hqw hrw => (h hrw hqw).symm)
    hr hq hrw hqw

/-- Every instruction has a row of its own. -/
theorem hasRow : ∀ i : Instr, Laws.HasRow.Statement i
  | .addUw .. => Laws.HasRow.addUw ..
  | .sh1add .. => Laws.HasRow.sh1add ..
  | .sh1addUw .. => Laws.HasRow.sh1addUw ..
  | .sh2add .. => Laws.HasRow.sh2add ..
  | .sh2addUw .. => Laws.HasRow.sh2addUw ..
  | .sh3add .. => Laws.HasRow.sh3add ..
  | .sh3addUw .. => Laws.HasRow.sh3addUw ..
  | .slliUw .. => Laws.HasRow.slliUw ..
  | .andn .. => Laws.HasRow.andn ..
  | .orn .. => Laws.HasRow.orn ..
  | .xnor .. => Laws.HasRow.xnor ..
  | .clz .. => Laws.HasRow.clz ..
  | .clzw .. => Laws.HasRow.clzw ..
  | .ctz .. => Laws.HasRow.ctz ..
  | .ctzw .. => Laws.HasRow.ctzw ..
  | .cpop .. => Laws.HasRow.cpop ..
  | .cpopw .. => Laws.HasRow.cpopw ..
  | .max .. => Laws.HasRow.max ..
  | .maxu .. => Laws.HasRow.maxu ..
  | .min .. => Laws.HasRow.min ..
  | .minu .. => Laws.HasRow.minu ..
  | .sextB .. => Laws.HasRow.sextB ..
  | .sextH .. => Laws.HasRow.sextH ..
  | .zextHRv32 .. => Laws.HasRow.zextHRv32 ..
  | .zextHRv64 .. => Laws.HasRow.zextHRv64 ..
  | .rol .. => Laws.HasRow.rol ..
  | .rolw .. => Laws.HasRow.rolw ..
  | .ror .. => Laws.HasRow.ror ..
  | .roriRv32 .. => Laws.HasRow.roriRv32 ..
  | .roriRv64 .. => Laws.HasRow.roriRv64 ..
  | .roriw .. => Laws.HasRow.roriw ..
  | .rorw .. => Laws.HasRow.rorw ..
  | .orcB .. => Laws.HasRow.orcB ..
  | .rev8Rv32 .. => Laws.HasRow.rev8Rv32 ..
  | .rev8Rv64 .. => Laws.HasRow.rev8Rv64 ..
  | .clmul .. => Laws.HasRow.clmul ..
  | .clmulh .. => Laws.HasRow.clmulh ..
  | .clmulr .. => Laws.HasRow.clmulr ..
  | .bclr .. => Laws.HasRow.bclr ..
  | .bclriRv32 .. => Laws.HasRow.bclriRv32 ..
  | .bclriRv64 .. => Laws.HasRow.bclriRv64 ..
  | .bext .. => Laws.HasRow.bext ..
  | .bextiRv32 .. => Laws.HasRow.bextiRv32 ..
  | .bextiRv64 .. => Laws.HasRow.bextiRv64 ..
  | .binv .. => Laws.HasRow.binv ..
  | .binviRv32 .. => Laws.HasRow.binviRv32 ..
  | .binviRv64 .. => Laws.HasRow.binviRv64 ..
  | .bset .. => Laws.HasRow.bset ..
  | .bsetiRv32 .. => Laws.HasRow.bsetiRv32 ..
  | .bsetiRv64 .. => Laws.HasRow.bsetiRv64 ..

/-! ## What the decoder answers -/

/-- The decoder rejects exactly the words that no row selects; the reason is R45's where it applies, else R44's. -/
theorem decodeWord_error_iff {x : Xlen} {w : InstWord} {e : Reject} : decodeWord x w = .error e ↔
    (∀ r ∈ rows, r.selects x w = false) ∧
      (if isReserved x w then Reject.reservedEncoding else Reject.unspecifiedWord) = e := by
  unfold decodeWord
  split
  next q hq =>
    have hqw : q.selects x w = true := List.find?_some (p := fun r : Row => r.selects x w) hq
    refine iff_of_false nofun fun ⟨none_selects, _⟩ => ?_
    exact Bool.noConfusion (hqw.symm.trans (none_selects q (List.mem_of_find?_eq_some hq)))
  next hnone =>
    have none_selects : ∀ r ∈ rows, r.selects x w = false := by simpa using hnone
    rw [← apply_ite, Except.error.injEq, and_iff_right none_selects]

/-- A word that a row selects decodes to the instruction the row makes of it (R40). -/
theorem decodeWord_of_selects {x : Xlen} {w : InstWord} {r : Row} (hr : r ∈ rows) (hrw : r.selects x w = true) :
    decodeWord x w = .ok (r.build w) := by
  cases h : decodeWord x w with
  | ok i =>
    obtain ⟨q, hq, hqw, rfl⟩ := Machine.decodeWord_ok h
    rw [Row.selects_unique hr hq hrw hqw]
  | error e =>
    obtain ⟨none_selects, _⟩ := decodeWord_error_iff.mp h
    exact Bool.noConfusion (hrw.symm.trans (none_selects r hr))

/-- The decoder gives an instruction of the hart's width back from its word. -/
theorem decodeWord_encode {x : Xlen} {i : Instr} (wf : i.WellFormed x) : decodeWord x (encode i) = .ok i := by
  obtain ⟨r, hr, _, hadmits, hmatch, hbuild⟩ := hasRow i
  have hsel : r.selects x (encode i) = true := (r.selects_iff _ _).mpr ⟨(hadmits x).trans wf, hmatch⟩
  rw [decodeWord_of_selects hr hsel, hbuild]

namespace Machine

/-! ## Reserved words and words that match nothing (R44, R45) -/

/-- A reserved word is one of the reserved patterns under format I5's mask (R45). -/
theorem isReserved_iff_mem (x : Xlen) (w : InstWord) :
    isReserved x w = true ↔ x = .rv32 ∧ w &&& maskR ∈ reservedPatterns := by
  simp only [isReserved, Bool.and_eq_true, beq_iff_eq, List.contains_iff_mem]

/-- The model's reserved words are the statements' ones (R45). -/
theorem isReserved_iff (x : Xlen) (w : InstWord) : isReserved x w = true ↔ IsReservedWord x w := by
  rw [isReserved_iff_mem]
  simp only [reservedPatterns, maskR, IsReservedWord, List.mem_cons, List.not_mem_nil, or_false]
  rfl

/-- Words that match the pattern match no row of width `x`, nor, where R45 applies, a reserved pattern. -/
abbrev MatchesNothing (x : Xlen) (p m : InstWord) : Prop :=
  (∀ r ∈ rows, r.admits x = true → Clash p m r.pattern r.mask) ∧
  (x = .rv32 → reservedPatterns.Forall (Clash p m · maskR))

/-- Words that match nothing are unspecified (R44). -/
theorem MatchesNothing.wordsUnspecified {x : Xlen} {p m : InstWord} (h : MatchesNothing x p m) :
    WordsUnspecified x m p := by
  intro w hw
  obtain ⟨hrows, hreserved⟩ := h
  refine decodeWord_error_iff.mpr ⟨fun r hr => ?_, if_neg fun reserved => ?_⟩
  · exact Clash.not_selects hw (hrows r hr)
  · obtain ⟨hx, hmem⟩ := (isReserved_iff_mem x w).mp reserved
    exact (List.forall_iff_forall_mem.mp (hreserved hx) _ hmem).ne hw rfl

/-! ## Reserved and unspecified words (O32) -/

/-- The reserved patterns of R45 clash with every row of XLEN = 32. -/
theorem reservedPatterns_clash : reservedPatterns.Forall fun p =>
    ∀ r ∈ rows, r.admits .rv32 = true → Clash p maskR r.pattern r.mask := by decide +kernel

/-- A reserved word selects no row. -/
theorem not_selects_of_isReserved {x : Xlen} {w : InstWord} (h : isReserved x w = true) :
    ∀ r ∈ rows, r.selects x w = false := by
  obtain ⟨rfl, hmem⟩ := (isReserved_iff_mem x w).mp h
  have clash := List.forall_iff_forall_mem.mp reservedPatterns_clash _ hmem
  exact fun r hr => Clash.not_selects rfl (clash r hr)

/-- When a word is rejected as reserved (R45). -/
theorem decodeWord_reserved_iff (x : Xlen) (w : InstWord) :
    decodeWord x w = .error .reservedEncoding ↔ IsReservedWord x w := by
  rw [decodeWord_error_iff, ← isReserved_iff]
  constructor
  · rintro ⟨_, reason⟩
    exact of_not_not fun unreserved => Reject.noConfusion ((if_neg unreserved).symm.trans reason)
  · exact fun h => ⟨not_selects_of_isReserved h, if_pos h⟩

/-- When a word is rejected as unspecified (R44). -/
theorem decodeWord_unspecified_iff (x : Xlen) (w : InstWord) : decodeWord x w = .error .unspecifiedWord ↔
    (∀ r ∈ rows, r.selects x w = false) ∧ ¬IsReservedWord x w := by
  rw [decodeWord_error_iff, ← isReserved_iff]
  refine and_congr_right fun _ => ?_
  cases isReserved x w <;> decide

/-- A step with a clear mark that fetches a word the decoder rejects is refused with the decoder's reason (R122). -/
theorem step_of_decode_error {s : State} {w : InstWord} {e : Reject} (hm : s.mark = .clear)
    (hf : s.fetch = some w) (hd : decodeWord s.xlen w = .error e) : step s = refuse e := by
  rw [step_of_fetch_some hm hf, executeWord, hd]

/-- Settles O32: the decoder's two rejections, and the step hands the reason on. -/
theorem rejectedWordsAreRefusedByName : Obligations.RejectedWordsAreRefusedByName := by
  refine fun x w => ⟨decodeWord_reserved_iff x w, decodeWord_unspecified_iff x w, ?_⟩
  rintro s hm rfl hf
  exact ⟨fun h => step_of_decode_error hm hf ((decodeWord_reserved_iff _ w).mpr h),
    fun hnone h => step_of_decode_error hm hf ((decodeWord_unspecified_iff _ w).mpr ⟨hnone, h⟩)⟩

/-! ## The common fields (O33) -/

/-- The opcode and funct3 of an instruction's word are those of its row's pattern. -/
theorem encode_fixed_fields {i : Instr} {r : Row} (hr : r ∈ rows) (fits : Laws.RowFits i r) :
    (encode i).extractLsb' 0 7 = r.pattern.extractLsb' 0 7 ∧
      (encode i).extractLsb' 12 3 = r.pattern.extractLsb' 12 3 := by
  obtain ⟨_, _, hmatch, _⟩ := fits
  obtain ⟨hopcode, hfunct3, _⟩ := Row.opcode_and_funct3_fixed r hr
  exact ⟨field_of_masked hmatch hopcode, field_of_masked hmatch hfunct3⟩

/-- Settles O33 by the instruction's row, which fixes the opcode and funct3 and reads `rd` and `rs1` from the word. -/
theorem commonFieldPositions : Obligations.CommonFieldPositions := by
  intro i
  obtain ⟨r, hr, fits⟩ := hasRow i
  obtain ⟨hopcode, hfunct3⟩ := encode_fixed_fields hr fits
  obtain ⟨_, _, opcode_mem⟩ := Row.opcode_and_funct3_fixed r hr
  obtain ⟨hmnemonic, _, _, hbuild⟩ := fits
  obtain ⟨_, hrd, hrs1⟩ := Row.build_fields hr (encode i)
  rw [hbuild] at hrd hrs1
  refine ⟨hopcode ▸ opcode_mem, hrd.symm, hrs1, fun j same => ?_⟩
  obtain ⟨q, hq, fits'⟩ := hasRow j
  obtain ⟨_, hfunct3'⟩ := encode_fixed_fields hq fits'
  obtain ⟨hmnemonic', _⟩ := fits'
  rw [hfunct3, hfunct3']
  exact Row.funct3_of_mnemonic q hq r hr (hmnemonic'.trans (same.trans hmnemonic.symm))

/-! ## `roriw` (O34) -/

/-- Bits 31 to 25 from bits 31 to 26 and bit 25. -/
theorem funct7_of_funct6 {w : InstWord} (h6 : w.extractLsb' 26 6 = 0x18#6) (h25 : w.getLsbD 25 = true) :
    w.extractLsb' 25 7 = 0x31#7 := by
  refine BitVec.eq_of_getLsbD_eq fun k hk => ?_
  rw [BitVec.getLsbD_extractLsb']
  cases k with
  | zero => simpa using h25
  | succ k =>
    have hk6 : k < 6 := Nat.lt_of_succ_lt_succ hk
    have bit := congrArg (BitVec.getLsbD · k) h6
    simp only [BitVec.getLsbD_extractLsb'] at bit
    interval_cases k <;> simpa using bit

/-- Settles O34: the fixed fields of the word are the pattern of `roriw` under format I5's mask, and with inst[25] = 1
a pattern that matches nothing at either width. -/
theorem roriwHasNoSixthShiftBit : Obligations.RoriwHasNoSixthShiftBit := by
  constructor
  · intro w hopcode hfunct3 hfunct7
    have hw : w &&& maskR = 0x6000501B#32 := by
      rw [and_maskR, hopcode, hfunct3, hfunct7]
      rfl
    have roriw_mem := Laws.row_mem (k := 30) rfl
    have nothing : MatchesNothing .rv32 0x6000501B#32 maskR := by decide +kernel
    exact ⟨decodeWord_of_selects roriw_mem ((Row.selects_iff _ _ _).mpr ⟨rfl, hw⟩),
      nothing.wordsUnspecified w hw⟩
  · intro x w hopcode hfunct3 hfunct6 hbit25
    have hw : w &&& maskR = 0x6200501B#32 := by
      rw [and_maskR, hopcode, hfunct3, funct7_of_funct6 hfunct6 hbit25]
      rfl
    have nothing : MatchesNothing x 0x6200501B#32 maskR := by cases x <;> decide +kernel
    exact nothing.wordsUnspecified w hw

/-! ## The rows of XLEN = 64 (O35) -/

/-- The eleven `w` and `.uw` mnemonics (R43). -/
def wordMnemonics : List String :=
  ["add.uw", "sh1add.uw", "sh2add.uw", "sh3add.uw", "slli.uw", "clzw", "ctzw", "cpopw", "rolw", "roriw", "rorw"]

/-- The seven mnemonics with two encodings (R42). -/
def twoRowMnemonics : List String := ["zext.h", "rev8", "rori", "bclri", "bexti", "binvi", "bseti"]

/-- The rows of the eleven exist at XLEN = 64 alone, and at XLEN = 32 their words match nothing. -/
theorem wordRows_only_at64 : ∀ r ∈ rows, r.mnemonic ∈ wordMnemonics →
    r.admits .rv64 = true ∧ r.admits .rv32 = false ∧ MatchesNothing .rv32 r.pattern r.mask := by decide +kernel

/-- Each row of the seven exists at one XLEN alone. -/
theorem twoRows_at_one_width : ∀ r ∈ rows, r.mnemonic ∈ twoRowMnemonics →
    r.admits .rv32 = !r.admits .rv64 := by decide +kernel

/-- The RV64 rows of the seven exist at XLEN = 64 alone. -/
theorem rv64Rows_only_at64 {rd rs1 : Reg} {shamt : BitVec 6} {i : Instr}
    (h : i ∈ [Instr.zextHRv64 rd rs1, .rev8Rv64 rd rs1, .roriRv64 rd rs1 shamt, .bclriRv64 rd rs1 shamt,
      .bextiRv64 rd rs1 shamt, .binviRv64 rd rs1 shamt, .bsetiRv64 rd rs1 shamt]) :
    i.validAt .rv64 = true ∧ i.validAt .rv32 = false := by
  simp only [List.mem_cons, List.not_mem_nil, or_false] at h
  obtain rfl | rfl | rfl | rfl | rfl | rfl | rfl := h <;> exact ⟨rfl, rfl⟩

/-- Settles O35: the XLEN column of an instruction's row is the instruction's, the decoder gives an instruction of the
width back, and a word that decodes matches the row of its instruction. -/
theorem wordFormsExistOnlyAt64 : Obligations.WordFormsExistOnlyAt64 := by
  refine ⟨fun i => ?_, fun rd rs1 shamt i hi => ?_, fun w i hdecode hi => ?_⟩
  · obtain ⟨r, hr, hmnemonic, hadmits, _⟩ := hasRow i
    simp only [← hmnemonic, ← hadmits]
    refine ⟨fun hi => ?_, twoRows_at_one_width r hr⟩
    obtain ⟨h64, h32, _⟩ := wordRows_only_at64 r hr hi
    exact ⟨h64, h32, decodeWord_encode ((hadmits _).symm.trans h64)⟩
  · obtain ⟨h64, h32⟩ := rv64Rows_only_at64 hi
    exact ⟨h64, h32, decodeWord_encode h64⟩
  · obtain ⟨r, hr, hsel, rfl⟩ := decodeWord_ok hdecode
    obtain ⟨hmnemonic, _⟩ := Row.build_fields hr w
    obtain ⟨_, _, nothing⟩ := wordRows_only_at64 r hr (hmnemonic ▸ hi)
    exact nothing.wordsUnspecified w ((r.selects_iff _ w).mp hsel).2

end Machine

end Sys2Proof

/-! # Address generation (O1 to O4) -/

namespace Sys2Proof

/-! ## The two widths -/

/-- A register holds at least a word (R3). -/
theorem Xlen.word_le_bits (x : Xlen) : 32 ≤ x.bits := by cases x <;> decide

/-- The range of a register at XLEN = 64. -/
theorem Xlen.two_pow_bits_rv64 {x : Xlen} (hx : x = .rv64) : 2 ^ x.bits = 2 ^ 64 := by
  subst hx; rfl

namespace Machine

/-! ## What the words of a row mean -/

/-- At a width that a row's XLEN column admits, the words of the row mean what the row makes of them (R37, R40). -/
theorem wordsMean_of_row {r : Row} {x : Xlen} (hr : r ∈ rows) (hadmits : r.admits x = true) :
    WordsMean x r.mask r.pattern r.build :=
  fun w hw => decodeWord_of_selects hr ((r.selects_iff x w).mpr ⟨hadmits, hw⟩)

/-- The words of a `w` or `.uw` row mean what the row makes of them at XLEN = 64, and nothing at XLEN = 32 (R43). -/
theorem wordRow_words {r : Row} (hr : r ∈ rows) (hmnemonic : r.mnemonic ∈ wordMnemonics) :
    WordsMean .rv64 r.mask r.pattern r.build ∧ WordsUnspecified .rv32 r.mask r.pattern := by
  obtain ⟨h64, _, nothing⟩ := wordRows_only_at64 r hr hmnemonic
  exact ⟨wordsMean_of_row hr h64, nothing.wordsUnspecified⟩

/-! ## Values as numbers -/

/-- The zero-extended low word of a register (R6). -/
theorem toNat_zextWord_reg (s : State) (r : Reg) : (zextWord (s.reg r)).toNat = s.regNat r % 2 ^ 32 := by
  have small : s.regNat r % 2 ^ 32 < 2 ^ s.xlen.bits :=
    calc s.regNat r % 2 ^ 32 < 2 ^ 32 := Nat.mod_lt _ (Nat.two_pow_pos 32)
      _ ≤ 2 ^ s.xlen.bits := Nat.pow_le_pow_right Nat.two_pos s.xlen.word_le_bits
  rw [zextWord, lowWord, BitVec.toNat_setWidth, BitVec.extractLsb'_toNat, Nat.shiftRight_zero]
  exact Nat.mod_eq_of_lt small

/-- A left shift as a product, the bits above the width lost (R6). -/
theorem toNat_shiftLeft_eq_mul (v : BitVec n) (k : Nat) : (v <<< k).toNat = v.toNat * 2 ^ k % 2 ^ n := by
  rw [BitVec.toNat_shiftLeft, Nat.shiftLeft_eq]

/-- A shift and add. What the shift loses and what the sum carries out are both multiples of 2^n, so one reduction
drops both. -/
theorem toNat_shiftAdd (k : Nat) (index base : BitVec n) :
    (shiftAdd k index base).toNat = (base.toNat + index.toNat * 2 ^ k) % 2 ^ n := by
  rw [shiftAdd, BitVec.toNat_add, toNat_shiftLeft_eq_mul, Nat.add_mod_mod]

/-! ## The two forms of shift and add -/

/-- The value an instruction that adds `rs2` and the shifted `rs1` completes with. -/
theorem Completes.of_shiftAdd {i : Instr} {s : State} {rs1 rs2 : Reg} (k : Nat)
    (h : exec i s = .next (s.retire i.dest (shiftAdd k (s.reg rs1) (s.reg rs2)))) :
    Completes i s ((s.regNat rs2 + s.regNat rs1 * 2 ^ k % 2 ^ s.xlen.bits) % 2 ^ s.xlen.bits) := by
  have value := toNat_shiftAdd k (s.reg rs1) (s.reg rs2)
  rw [← Nat.add_mod_mod] at value
  exact value ▸ .of_retire h

/-- The value an instruction of XLEN = 64 that adds `rs2` and the shifted low word of `rs1` completes with. -/
theorem Completes.of_shiftAddUw {i : Instr} {s : State} {rs1 rs2 : Reg} (k : Nat) (hx : s.xlen = .rv64)
    (h : exec i s = s.onlyOn .rv64 (.next (s.retire i.dest (shiftAdd k (zextWord (s.reg rs1)) (s.reg rs2))))) :
    Completes i s ((s.regNat rs2 + s.regNat rs1 % 2 ^ 32 * 2 ^ k) % 2 ^ 64) := by
  have value := toNat_shiftAdd k (zextWord (s.reg rs1)) (s.reg rs2)
  rw [toNat_zextWord_reg, Xlen.two_pow_bits_rv64 hx] at value
  exact value ▸ .of_onlyOn hx h

/-! ## The statements -/

/-- Settles O1: `add.uw` is the shift and add with a shift by no places. -/
theorem addUwAddsZeroExtendedLowWord : Obligations.AddUwAddsZeroExtendedLowWord := by
  obtain ⟨means, unspecified⟩ := wordRow_words (Laws.row_mem (k := 0) rfl) (by decide)
  refine ⟨means, unspecified, fun rd rs1 rs2 s hx => ?_⟩
  have completes : Completes (.addUw rd rs1 rs2) s _ := .of_shiftAddUw 0 hx rfl
  rwa [pow_zero, mul_one] at completes

/-- Settles O2: the three shift amounts of one form. -/
theorem shiftAddsSumRs2AndShiftedRs1 : Obligations.ShiftAddsSumRs2AndShiftedRs1 := by
  have sh1add_mem := Laws.row_mem (k := 1) rfl
  have sh2add_mem := Laws.row_mem (k := 3) rfl
  have sh3add_mem := Laws.row_mem (k := 5) rfl
  refine ⟨fun x => wordsMean_of_row sh1add_mem ?_, fun x => wordsMean_of_row sh2add_mem ?_,
    fun x => wordsMean_of_row sh3add_mem ?_, fun rd rs1 rs2 s => ⟨.of_shiftAdd 1 rfl, .of_shiftAdd 2 rfl,
    .of_shiftAdd 3 rfl⟩⟩
  all_goals cases x <;> rfl

/-- Settles O3: the three shift amounts of one form, which reduces modulo 2^64 only once, after the sum. -/
theorem shiftAddUwsSumRs2AndShiftedLowWord : Obligations.ShiftAddUwsSumRs2AndShiftedLowWord := by
  obtain ⟨means1, unspecified1⟩ := wordRow_words (Laws.row_mem (k := 2) rfl) (by decide)
  obtain ⟨means2, unspecified2⟩ := wordRow_words (Laws.row_mem (k := 4) rfl) (by decide)
  obtain ⟨means3, unspecified3⟩ := wordRow_words (Laws.row_mem (k := 6) rfl) (by decide)
  exact ⟨means1, unspecified1, means2, unspecified2, means3, unspecified3, fun rd rs1 rs2 s hx =>
    ⟨.of_shiftAddUw 1 hx rfl, .of_shiftAddUw 2 hx rfl, .of_shiftAddUw 3 hx rfl⟩⟩

/-- Settles O4: the shifted value is the product with 2^shamt, reduced modulo 2^64. -/
theorem slliUwShiftsZeroExtendedLowWord : Obligations.SlliUwShiftsZeroExtendedLowWord := by
  obtain ⟨means, unspecified⟩ := wordRow_words (Laws.row_mem (k := 7) rfl) (by decide)
  refine ⟨means, unspecified, fun rd rs1 shamt s hx => ?_⟩
  have value := toNat_shiftLeft_eq_mul (zextWord (s.reg rs1)) shamt.toNat
  rw [toNat_zextWord_reg, Xlen.two_pow_bits_rv64 hx] at value
  exact value ▸ .of_onlyOn hx rfl

end Machine

end Sys2Proof

/-! # Logic with the inverted operand (O5) -/

namespace Sys2Proof.Machine

/-- Below the width, the bits of a register's number are the bits of the register. -/
theorem State.testBit_regNat (s : State) (r : Reg) {k : Nat} (hk : k < s.xlen.bits) :
    (s.regNat r).testBit k = (s.reg r)[k] :=
  BitVec.testBit_toNat _

/-- An instruction that retires a value completes with a number that has the value's bits. -/
theorem Completes.of_retire_bits {i : Instr} {s : State} {v : XWord s.xlen} {bit : Nat → Bool}
    (h : exec i s = .next (s.retire i.dest v)) (bits : ∀ (k : Nat) (hk : k < s.xlen.bits), v[k] = bit k) :
    ∃ n, Completes i s n ∧ ∀ k, k < s.xlen.bits → n.testBit k = bit k :=
  ⟨_, .of_retire h, fun k hk => (BitVec.testBit_toNat v).trans (bits k hk)⟩

/-- Settles O5: bit `k` of each result is computed from bit `k` of the two sources. For `xnor` the model inverts the
exclusive OR, and two bits are equal exactly when their exclusive OR is 0. -/
theorem logicWithInvertedOperandBitByBit : Obligations.LogicWithInvertedOperandBitByBit := by
  have andn_mem := Laws.row_mem (k := 8) rfl
  have orn_mem := Laws.row_mem (k := 9) rfl
  have xnor_mem := Laws.row_mem (k := 10) rfl
  refine ⟨fun x => wordsMean_of_row andn_mem ?_, fun x => wordsMean_of_row orn_mem ?_,
    fun x => wordsMean_of_row xnor_mem ?_, fun rd rs1 rs2 s => ⟨Completes.of_retire_bits rfl fun k hk => ?andn,
    Completes.of_retire_bits rfl fun k hk => ?orn, Completes.of_retire_bits rfl fun k hk => ?xnor⟩⟩
  case andn => rw [s.testBit_regNat rs1 hk, s.testBit_regNat rs2 hk, BitVec.getElem_and, BitVec.getElem_not]
  case orn => rw [s.testBit_regNat rs1 hk, s.testBit_regNat rs2 hk, BitVec.getElem_or, BitVec.getElem_not]
  case xnor =>
    rw [s.testBit_regNat rs1 hk, s.testBit_regNat rs2 hk, BitVec.getElem_not, BitVec.getElem_xor]
    exact Bool.not_not _
  all_goals cases x <;> rfl

end Sys2Proof.Machine

/-! # Counting bits (O6 to O8) -/

namespace Sys2Proof.Machine

/-! ## The counting loops -/

/-- The loop stops at the first place of its range that is hit, and past the range where none is. -/
theorem firstHit_eq_findIdx (hit : Nat → Bool) (left i : Nat) :
    firstHit hit left i = i + (List.range' i left).findIdx hit := by
  induction left generalizing i with
  | zero => rfl
  | succ left ih =>
    rw [firstHit, ih, List.range'_succ, List.findIdx_cons]
    cases hit i
    · exact Nat.add_right_comm i 1 _
    · rfl

/-- What a loop of `n` turns from 0 finds: it stops within the range, nothing before that place is hit, and a place in
the range that it stops at is hit. -/
theorem firstHit_spec (hit : Nat → Bool) (n : Nat) : firstHit hit n 0 ≤ n ∧
    (∀ k, k < firstHit hit n 0 → hit k = false) ∧ (firstHit hit n 0 < n → hit (firstHit hit n 0) = true) := by
  have stop : firstHit hit n 0 = (List.range n).findIdx hit := by
    rw [firstHit_eq_findIdx, Nat.zero_add, List.range_eq_range']
  rw [stop]
  refine ⟨?within, fun k hk => ?before, fun inside => ?found⟩
  case within => simpa using List.findIdx_le_length (xs := List.range n) (p := hit)
  case before => simpa using List.not_of_lt_findIdx hk
  case found =>
    have found := List.findIdx_getElem (xs := List.range n) (p := hit) (w := by simpa using inside)
    rwa [List.getElem_range] at found

/-- The number of places `clz_N` passes is the number of leading zeros: turn `k` looks at bit N-1-k. -/
theorem isLeadingZeros_countLeadingZeros (v : BitVec n) : IsLeadingZeros n v.toNat (countLeadingZeros v) := by
  obtain ⟨within, before, found⟩ := firstHit_spec (fun i => v.getLsbD (n - 1 - i)) n
  refine ⟨within, fun k hlow hk => ?_, found⟩
  have passed : n - 1 - k < countLeadingZeros v := by omega
  have turn : n - 1 - (n - 1 - k) = k := by omega
  exact turn ▸ before _ passed

/-- The number of places `ctz_N` passes is the number of trailing zeros. -/
theorem isTrailingZeros_countTrailingZeros (v : BitVec n) : IsTrailingZeros n v.toNat (countTrailingZeros v) :=
  firstHit_spec (fun i => v.getLsbD i) n

/-- The loop of `pop_N` counts the 1 bits it has passed. -/
theorem countOnesBelow_eq_onesOf (v : BitVec n) (k : Nat) : countOnesBelow v k = onesOf k v.toNat := by
  induction k with
  | zero => rfl
  | succ k ih =>
    rw [countOnesBelow, ih, onesOf, onesOf, List.range_succ, List.countP_append, List.countP_singleton,
      BitVec.testBit_toNat]
    cases v.getLsbD k <;> rfl

/-- A value has at most as many 1 bits as bits. -/
theorem onesOf_le (n a : Nat) : onesOf n a ≤ n := by
  simpa [onesOf] using List.countP_le_length (l := List.range n) (p := fun k => a.testBit k)

/-- The 1 bits among the N lowest do not depend on the bits above them. -/
theorem onesOf_mod_two_pow (n a : Nat) : onesOf n (a % 2 ^ n) = onesOf n a := by
  refine List.countP_congr fun k hk => ?_
  rw [Nat.testBit_mod_two_pow, decide_eq_true (List.mem_range.mp hk), Bool.true_and]

/-! ## A count as a result -/

/-- The low word of a register as a number (R5). -/
theorem toNat_lowWord_reg (s : State) (r : Reg) : (lowWord (s.reg r)).toNat = s.regNat r % 2 ^ 32 := by
  rw [lowWord, BitVec.extractLsb'_toNat, Nat.shiftRight_zero]
  rfl

/-- A count of at most N places fits in N bits. -/
theorem toNat_countValue {n c : Nat} (h : c ≤ n) : (countValue c : BitVec n).toNat = c := by
  rw [countValue, BitVec.toNat_ofNat]
  exact Nat.mod_eq_of_lt (h.trans_lt Nat.lt_two_pow_self)

/-- An instruction that retires a count over the register completes with the count. -/
theorem Completes.of_count {i : Instr} {s : State} {c : Nat} (fits : c ≤ s.xlen.bits)
    (h : exec i s = .next (s.retire i.dest (countValue c))) : Completes i s c := by
  have completes := Completes.of_retire h
  rwa [toNat_countValue fits] at completes

/-- A mnemonic that retires what `count` counts in the register, with a `w` form that retires what it counts in the low
word: where `count` finds the count that `spec` says, and a count fits its width, both forms complete with it. -/
theorem completes_with_counts {i iw : Instr} {s : State} {rs1 : Reg} {count : (n : Nat) → BitVec n → Nat}
    {spec : Nat → Nat → Nat → Prop} (le : ∀ n v, count n v ≤ n) (correct : ∀ n v, spec n v.toNat (count n v))
    (h : exec i s = .next (s.retire i.dest (countValue (count _ (s.reg rs1)))))
    (hw : exec iw s = s.onlyOn .rv64 (.next (s.retire iw.dest (countValue (count _ (lowWord (s.reg rs1))))))) :
    (∃ c, Completes i s c ∧ spec s.xlen.bits (s.regNat rs1) c) ∧
    (s.xlen = .rv64 → ∃ c, Completes iw s c ∧ spec 32 (s.regNat rs1 % 2 ^ 32) c) := by
  refine ⟨⟨_, .of_count (le _ _) h, correct _ _⟩, fun hx => ?_⟩
  have fits := (le 32 (lowWord (s.reg rs1))).trans s.xlen.word_le_bits
  exact ⟨_, .of_count fits (hw.trans (State.onlyOn_same hx _)), toNat_lowWord_reg s rs1 ▸ correct 32 _⟩

/-! ## The statements -/

/-- Settles O6: the loop of `clz_N` over the register, and over its low word. -/
theorem leadingZeroCounts : Obligations.LeadingZeroCounts := by
  have clz_mem := Laws.row_mem (k := 11) rfl
  obtain ⟨means, unspecified⟩ := wordRow_words (Laws.row_mem (k := 12) rfl) (by decide)
  refine ⟨fun x => wordsMean_of_row clz_mem (by cases x <;> rfl), means, unspecified, fun rd rs1 s => ?_⟩
  have correct n (v : BitVec n) := isLeadingZeros_countLeadingZeros v
  exact completes_with_counts (fun n v => (correct n v).1) correct rfl rfl

/-- Settles O7: the loop of `ctz_N` over the register, and over its low word. -/
theorem trailingZeroCounts : Obligations.TrailingZeroCounts := by
  have ctz_mem := Laws.row_mem (k := 13) rfl
  obtain ⟨means, unspecified⟩ := wordRow_words (Laws.row_mem (k := 14) rfl) (by decide)
  refine ⟨fun x => wordsMean_of_row ctz_mem (by cases x <;> rfl), means, unspecified, fun rd rs1 s => ?_⟩
  have correct n (v : BitVec n) := isTrailingZeros_countTrailingZeros v
  exact completes_with_counts (fun n v => (correct n v).1) correct rfl rfl

/-- Settles O8: the loop of `pop_N` over the register, and over its low word, whose 1 bits are those of the register's
32 lowest. -/
theorem populationCounts : Obligations.PopulationCounts := by
  have cpop_mem := Laws.row_mem (k := 15) rfl
  obtain ⟨means, unspecified⟩ := wordRow_words (Laws.row_mem (k := 16) rfl) (by decide)
  refine ⟨fun x => wordsMean_of_row cpop_mem (by cases x <;> rfl), means, unspecified, fun rd rs1 s => ?_⟩
  have correct n (v : BitVec n) : countOnes v = onesOf n v.toNat := countOnesBelow_eq_onesOf v n
  have le n (v : BitVec n) : countOnes v ≤ n := (correct n v).trans_le (onesOf_le _ _)
  obtain ⟨⟨_, register, rfl⟩, word⟩ := completes_with_counts (i := .cpop rd rs1) (iw := .cpopw rd rs1) (s := s)
    (rs1 := rs1) (spec := fun n a c => c = onesOf n a) le correct rfl rfl
  refine ⟨register, fun hx => ?_⟩
  obtain ⟨_, low, rfl⟩ := word hx
  rwa [onesOf_mod_two_pow] at low

end Sys2Proof.Machine

/-! # Maximum and minimum (O9, O10) -/

namespace Sys2Proof.Machine

/-! ## The comparisons as the spec reads them -/

/-- The two's-complement reading of a register: the value less 2^XLEN from the middle of the range on (R6). -/
theorem toInt_eq_signedReading (v : BitVec n) : v.toInt = signedReading n v.toNat := by
  cases n with
  | zero => rw [BitVec.of_length_zero (x := v)]; rfl
  | succ n =>
    have middle : 2 * v.toNat < 2 ^ (n + 1) ↔ v.toNat < 2 ^ n := by rw [Nat.pow_succ']; omega
    simp only [BitVec.toInt_eq_toNat_cond, signedReading, Nat.add_sub_cancel, middle, Nat.cast_pow, Nat.cast_ofNat]

/-- `<_s` compares the signed readings of two registers. -/
theorem ltSigned_reg (s : State) (a b : Reg) : ltSigned (s.reg a) (s.reg b) = true ↔
    signedReading s.xlen.bits (s.regNat a) < signedReading s.xlen.bits (s.regNat b) := by
  rw [ltSigned, toInt_eq_signedReading, toInt_eq_signedReading]
  exact decide_eq_true_iff

/-- `<_u` compares the numbers two registers read as. -/
theorem ltUnsigned_reg (s : State) (a b : Reg) :
    ltUnsigned (s.reg a) (s.reg b) = true ↔ s.regNat a < s.regNat b :=
  decide_eq_true_iff

/-! ## A selected register as a result -/

/-- An instruction that retires one of two registers completes with that register's number. -/
theorem Completes.of_select {i : Instr} {s : State} {a b : Reg} {c : Bool} {p : Prop} [Decidable p]
    (outcome : c = true ↔ p) (h : exec i s = .next (s.retire i.dest (if c then s.reg a else s.reg b))) :
    Completes i s (if p then s.regNat a else s.regNat b) := by
  by_cases hp : p
  · rw [if_pos (outcome.mpr hp)] at h
    exact if_pos hp ▸ .of_retire h
  · rw [if_neg (mt outcome.mp hp)] at h
    exact if_neg hp ▸ .of_retire h

/-! ## The statements -/

/-- Settles O9: both instructions select by the signed comparison of `rs1` with `rs2`. -/
theorem signedMaxAndMin : Obligations.SignedMaxAndMin := by
  have max_mem := Laws.row_mem (k := 17) rfl
  have min_mem := Laws.row_mem (k := 19) rfl
  refine ⟨fun x => wordsMean_of_row max_mem ?_, fun x => wordsMean_of_row min_mem ?_, fun rd rs1 rs2 s =>
    ⟨.of_select (ltSigned_reg s rs1 rs2) rfl, .of_select (ltSigned_reg s rs1 rs2) rfl⟩⟩
  all_goals cases x <;> rfl

/-- Settles O10: both instructions select by the unsigned comparison of `rs1` with `rs2`, and what they select is the
larger and the smaller number. -/
theorem unsignedMaxAndMin : Obligations.UnsignedMaxAndMin := by
  have maxu_mem := Laws.row_mem (k := 18) rfl
  have minu_mem := Laws.row_mem (k := 20) rfl
  refine ⟨fun x => wordsMean_of_row maxu_mem ?_, fun x => wordsMean_of_row minu_mem ?_,
    fun rd rs1 rs2 s => ?completes⟩
  case completes =>
    rw [max_def_lt, min_def_lt]
    exact ⟨.of_select (ltUnsigned_reg s rs1 rs2) rfl, .of_select (ltUnsigned_reg s rs1 rs2) rfl⟩
  all_goals cases x <;> rfl

end Sys2Proof.Machine

/-! # Extensions (O11, O12) -/

namespace Sys2Proof.Machine

/-! ## The extended values -/

/-- A value sign-extended from its bits `top` to 0: up to bit `top` its own bits, above it copies of bit `top` (R6). -/
theorem getElem_signExtend_low (v : BitVec n) (top : Nat) {m k : Nat} (hk : k < m) :
    ((v.extractLsb' 0 (top + 1)).signExtend m)[k] = v.getLsbD (min k top) := by
  rw [BitVec.getElem_signExtend]
  split
  next low =>
    rw [BitVec.getElem_extractLsb', Nat.zero_add, Nat.min_eq_left (Nat.le_of_lt_succ low)]
  next high =>
    rw [BitVec.msb_eq_getLsbD_last, Nat.add_sub_cancel, BitVec.getLsbD_extractLsb', Nat.zero_add,
      decide_eq_true top.lt_succ_self, Bool.true_and, Nat.min_eq_right (by omega)]

/-- An instruction that retires the register sign-extended from its bits `top` to 0 completes with bit `top` copied
upwards. -/
theorem Completes.of_signExtend_low {i : Instr} {s : State} {rs1 : Reg} (top : Nat)
    (h : exec i s = .next (s.retire i.dest (((s.reg rs1).extractLsb' 0 (top + 1)).signExtend s.xlen.bits))) :
    ∃ v, Completes i s v ∧ ∀ k, k < s.xlen.bits → v.testBit k = (s.regNat rs1).testBit (min k top) :=
  Completes.of_retire_bits h fun _ hk => getElem_signExtend_low (s.reg rs1) top hk

/-- The zero-extended low halfword of a register (R6); a register holds at least a halfword. -/
theorem toNat_setWidth_lowHalf_reg (s : State) (r : Reg) :
    ((lowHalf (s.reg r)).setWidth s.xlen.bits).toNat = s.regNat r % 2 ^ 16 := by
  have fits : 16 ≤ s.xlen.bits := le_trans (by decide) s.xlen.word_le_bits
  rw [BitVec.toNat_setWidth_of_le fits, lowHalf, BitVec.extractLsb'_toNat, Nat.shiftRight_zero]
  rfl

/-- An instruction of one width that retires the zero-extended low halfword completes with it. -/
theorem Completes.of_zextHalf {i : Instr} {s : State} {x : Xlen} {rs1 : Reg} (hx : s.xlen = x)
    (h : exec i s = s.onlyOn x (zextHalf i.dest rs1 s)) : Completes i s (s.regNat rs1 % 2 ^ 16) :=
  toNat_setWidth_lowHalf_reg s rs1 ▸ .of_onlyOn hx h

/-! ## The words around `zext.h` -/

/-- The fixed fields of the two encodings of `zext.h` with bits 24 to 20 left open (R82). -/
def zextHPatterns : List InstWord := [0x08004033#32, 0x0800403B#32]

/-- A row either clashes with the open patterns of `zext.h` or has bits 24 to 20 fixed at 0. -/
theorem zextHPatterns_clash_or_zero_field : zextHPatterns.Forall fun p =>
    ∀ r ∈ rows, Clash p maskR r.pattern r.mask ∨
      r.mask.extractLsb' 20 5 = BitVec.allOnes 5 ∧ r.pattern.extractLsb' 20 5 = 0#5 := by decide +kernel

/-- No open pattern of `zext.h` is reserved (R45). -/
theorem zextHPatterns_not_reserved : zextHPatterns.Forall (· ∉ reservedPatterns) := by decide

/-- A word with the fixed fields of `zext.h` and bits 24 to 20 not all 0 is unspecified at either width (R82, R44). -/
theorem decodeWord_zextH_nonzero_field {x : Xlen} {w : InstWord} (hfield : w.extractLsb' 20 5 ≠ 0#5)
    (hw : w &&& maskR ∈ zextHPatterns) : decodeWord x w = .error .unspecifiedWord := by
  refine decodeWord_error_iff.mpr ⟨fun r hr => ?_, if_neg fun reserved => ?_⟩
  · obtain clash | ⟨covers, zero⟩ := List.forall_iff_forall_mem.mp zextHPatterns_clash_or_zero_field _ hw r hr
    · exact Clash.not_selects rfl fun _ => clash
    · refine Bool.eq_false_iff.mpr fun hsel => hfield ?_
      obtain ⟨_, hmatch⟩ := (r.selects_iff x w).mp hsel
      exact (field_of_masked hmatch covers).trans zero
  · obtain ⟨_, hmem⟩ := (isReserved_iff_mem x w).mp reserved
    exact List.forall_iff_forall_mem.mp zextHPatterns_not_reserved _ hw hmem

/-! ## The statements -/

/-- Settles O11: the byte ends at bit 7 and the halfword at bit 15 of one form. -/
theorem signExtensionsCopyTheirTopBit : Obligations.SignExtensionsCopyTheirTopBit := by
  have sextB_mem := Laws.row_mem (k := 21) rfl
  have sextH_mem := Laws.row_mem (k := 22) rfl
  refine ⟨fun x => wordsMean_of_row sextB_mem ?_, fun x => wordsMean_of_row sextH_mem ?_, fun rd rs1 s =>
    ⟨Completes.of_signExtend_low 7 rfl, Completes.of_signExtend_low 15 rfl⟩⟩
  all_goals cases x <;> rfl

/-- Settles O12: each encoding is a row of one width, whose words match nothing at the other; the row fixes bits 24 to
20 at 0. -/
theorem zextHKeepsLowHalfword : Obligations.ZextHKeepsLowHalfword := by
  have rv32_mem := Laws.row_mem (k := 23) rfl
  have rv64_mem := Laws.row_mem (k := 24) rfl
  have rv32_words_at64 : MatchesNothing .rv64 0x08004033#32 maskU := by decide +kernel
  have rv64_words_at32 : MatchesNothing .rv32 0x0800403B#32 maskU := by decide +kernel
  refine ⟨wordsMean_of_row rv32_mem rfl, wordsMean_of_row rv64_mem rfl, rv32_words_at64.wordsUnspecified,
    rv64_words_at32.wordsUnspecified, fun x w hfield hw => ?nonzero_field, fun rd rs1 s =>
    ⟨fun hx => .of_zextHalf hx rfl, fun hx => .of_zextHalf hx rfl⟩⟩
  case nonzero_field => exact decodeWord_zextH_nonzero_field hfield (List.mem_pair.mpr hw)

end Sys2Proof.Machine

/-! # Rotates (O13 to O16) -/

namespace Sys2Proof.Machine

/-! ## The bits of a rotated value -/

/-- The model's left rotate by less than the width is the library's. -/
theorem rotateLeft_eq (v : BitVec n) {k : Nat} (hk : k < n) : rotateLeft v k = v.rotateLeft k :=
  (BitVec.rotateLeft_eq_rotateLeftAux_of_lt hk).symm

/-- The model's right rotate by less than the width is the library's. -/
theorem rotateRight_eq (v : BitVec n) {k : Nat} (hk : k < n) : rotateRight v k = v.rotateRight k :=
  (BitVec.rotateRight_eq_rotateRightAux_of_lt hk).symm

/-- A bit position moved up by less than the width wraps at most once. -/
theorem rotated_position {i k n : Nat} (hi : i < n) (hk : k < n) :
    (i + k) % n = if i + k < n then i + k else i + k - n := by
  split
  next inside => exact Nat.mod_eq_of_lt inside
  next wraps => rw [Nat.mod_eq_sub_mod (Nat.not_lt.mp wraps), Nat.mod_eq_of_lt (by omega)]

/-- The left rotate places bit i at (i + k) mod N. The library reads the bits below k from the top of the value: there
the position has wrapped. -/
theorem isRotatedLeft_rotateLeft (v : BitVec n) {k : Nat} (hk : k < n) :
    IsRotatedLeft n v.toNat k (rotateLeft v k).toNat := by
  intro i hi
  rw [rotateLeft_eq v hk, BitVec.testBit_toNat, BitVec.testBit_toNat, BitVec.getLsbD_rotateLeft,
    Nat.mod_eq_of_lt hk, rotated_position hi hk]
  split
  next inside => simp [inside]
  next wraps =>
    have below : i + k - n < k := by omega
    have source : n - k + (i + k - n) = i := by omega
    simp [below, source]

/-- The right rotate takes bit i from (i + k) mod N. The library reads the k highest bits from the bottom of the value:
there the position has wrapped. -/
theorem isRotatedRight_rotateRight (v : BitVec n) {k : Nat} (hk : k < n) :
    IsRotatedRight n v.toNat k (rotateRight v k).toNat := by
  intro i hi
  rw [rotateRight_eq v hk, BitVec.testBit_toNat, BitVec.testBit_toNat, BitVec.getLsbD_rotateRight,
    Nat.mod_eq_of_lt hk, rotated_position hi hk]
  split
  next inside =>
    have below : i < n - k := by omega
    simp [below, Nat.add_comm]
  next wraps =>
    have above : ¬i < n - k := by omega
    have source : i - (n - k) = i + k - n := by omega
    simp [above, hi, source]

/-- A rotate to the left within N bits reads and places only the N lowest bits. -/
theorem isRotatedLeft_mod_iff (n a k v : Nat) :
    IsRotatedLeft n (a % 2 ^ n) k (v % 2 ^ n) ↔ IsRotatedLeft n a k v := by
  refine forall₂_congr fun i hi => ?_
  have placed : (i + k) % n < n := Nat.mod_lt _ (Nat.zero_lt_of_lt hi)
  simp only [Nat.testBit_mod_two_pow, hi, placed, decide_true, Bool.true_and]

/-- A rotate to the right within N bits reads and places only the N lowest bits. -/
theorem isRotatedRight_mod_iff (n a k v : Nat) :
    IsRotatedRight n (a % 2 ^ n) k (v % 2 ^ n) ↔ IsRotatedRight n a k v := by
  refine forall₂_congr fun i hi => ?_
  have taken : (i + k) % n < n := Nat.mod_lt _ (Nat.zero_lt_of_lt hi)
  simp only [Nat.testBit_mod_two_pow, hi, taken, decide_true, Bool.true_and]

/-! ## The amounts in a register -/

/-- The low log2(XLEN) bits of a register are its number modulo XLEN (R85, R87). -/
theorem amountXlen_reg (s : State) (r : Reg) : amountXlen (s.reg r) = s.regNat r % s.xlen.bits := by
  have width : 2 ^ s.xlen.logBits = s.xlen.bits := by cases s.xlen <;> rfl
  rw [amountXlen, BitVec.extractLsb'_toNat, Nat.shiftRight_zero, width]
  rfl

/-- The low five bits of a register are its number modulo 32 (R86, R90). -/
theorem amountWord_reg (s : State) (r : Reg) : amountWord (s.reg r) = s.regNat r % 32 := by
  rw [amountWord, BitVec.extractLsb'_toNat, Nat.shiftRight_zero]
  rfl

/-! ## A sign-extended word as a result -/

/-- A sign-extended word keeps its own bits, and above bit 31 has copies of it (R6). -/
theorem getLsbD_sextWord (w : BitVec 32) {m k : Nat} (hk : k < m) :
    (sextWord w : BitVec m).getLsbD k = w.getLsbD (min k 31) := by
  have extended := getElem_signExtend_low w 31 hk
  rwa [BitVec.extractLsb'_eq_self, ← BitVec.getLsbD_eq_getElem] at extended

/-- The low word of a sign-extended word. -/
theorem toNat_sextWord_mod (w : BitVec 32) {m : Nat} (hm : 32 ≤ m) :
    (sextWord w : BitVec m).toNat % 2 ^ 32 = w.toNat := by
  refine Nat.eq_of_testBit_eq fun k => ?_
  rw [Nat.testBit_mod_two_pow, BitVec.testBit_toNat, BitVec.testBit_toNat]
  by_cases hk : k < 32
  · rw [getLsbD_sextWord w (hk.trans_le hm), Nat.min_eq_left (Nat.le_of_lt_succ hk), decide_eq_true hk, Bool.true_and]
  · rw [BitVec.getLsbD_of_ge w k (Nat.le_of_not_lt hk), decide_eq_false hk, Bool.false_and]

/-- The high word of a word sign-extended to 64 bits. -/
theorem highWordCopiesBit31_sextWord (w : BitVec 32) {m : Nat} (hm : 64 ≤ m) :
    HighWordCopiesBit31 (sextWord w : BitVec m).toNat := by
  intro k hlow hhigh
  rw [BitVec.testBit_toNat, BitVec.testBit_toNat, getLsbD_sextWord w (by omega), getLsbD_sextWord w (by omega),
    Nat.min_eq_right (by omega), Nat.min_self]

/-- An instruction of XLEN = 64 that retires the sign extension of what `op` makes of the low word: where `spec` says
what `op` does to a word, and says it of the low words alone, the instruction completes with it. -/
theorem completes_with_word_op {i : Instr} {s : State} {rs1 : Reg} {op : BitVec 32 → BitVec 32}
    {spec : Nat → Nat → Prop} (low : ∀ a v, spec (a % 2 ^ 32) (v % 2 ^ 32) ↔ spec a v)
    (correct : ∀ w, spec w.toNat (op w).toNat) (hx : s.xlen = .rv64)
    (h : exec i s = s.onlyOn .rv64 (.next (s.retire i.dest (sextWord (op (lowWord (s.reg rs1))))))) :
    ∃ v, Completes i s v ∧ spec (s.regNat rs1) v ∧ HighWordCopiesBit31 v := by
  have bits : 64 ≤ s.xlen.bits := by rw [hx]; exact Nat.le_refl 64
  refine ⟨_, .of_onlyOn hx h, (low _ _).mp ?_, highWordCopiesBit31_sextWord _ bits⟩
  rw [toNat_sextWord_mod _ s.xlen.word_le_bits, ← toNat_lowWord_reg]
  exact correct _

/-! ## The immediate forms -/

/-- A word with a reserved pattern is rejected as reserved at XLEN = 32 (R45). -/
theorem decodeWord_of_mem_reservedPatterns {w : InstWord} (h : w &&& maskR ∈ reservedPatterns) :
    decodeWord .rv32 w = .error .reservedEncoding :=
  (decodeWord_reserved_iff _ w).mpr ((isReserved_iff _ w).mp ((isReserved_iff_mem _ w).mpr ⟨rfl, h⟩))

/-- The two encodings of a shift-immediate mnemonic that retires what `op` makes of the register and the amount: where
`result` says what `op` does by amounts below the width, each encoding completes with it at its own width. -/
theorem completes_with_immediate {mk5 : BitVec 5 → Instr} {mk6 : BitVec 6 → Instr} {s : State} {rs1 : Reg}
    {op : (n : Nat) → BitVec n → Nat → BitVec n} {result : Nat → Nat → Nat → Nat → Prop}
    (correct : ∀ n v k, k < n → result n v.toNat k (op n v k).toNat)
    (h5 : ∀ shamt, exec (mk5 shamt) s = .next (s.retire (mk5 shamt).dest (op _ (s.reg rs1) shamt.toNat)))
    (h6 : ∀ shamt, exec (mk6 shamt) s =
      s.unlessReserved shamt (.next (s.retire (mk6 shamt).dest (op _ (s.reg rs1) shamt.toNat)))) :
    (∀ shamt, s.xlen = .rv32 → ∃ v, Completes (mk5 shamt) s v ∧ result 32 (s.regNat rs1) shamt.toNat v) ∧
    (∀ shamt, s.xlen = .rv64 → ∃ v, Completes (mk6 shamt) s v ∧ result 64 (s.regNat rs1) shamt.toNat v) := by
  refine ⟨fun shamt hx => ?rv32, fun shamt hx => ?rv64⟩
  case rv32 =>
    have width : s.xlen.bits = 32 := congrArg Xlen.bits hx
    exact width ▸ ⟨_, .of_retire (h5 shamt), correct _ _ _ (width ▸ shamt.isLt)⟩
  case rv64 =>
    have width : s.xlen.bits = 64 := congrArg Xlen.bits hx
    exact width ▸ ⟨_, .of_unlessReserved hx (h6 shamt), correct _ _ _ (width ▸ shamt.isLt)⟩

/-! ## The statements -/

/-- Settles O13: the amount is less than XLEN, where the model's rotates place every bit. -/
theorem registerRotates : Obligations.RegisterRotates := by
  have rol_mem := Laws.row_mem (k := 25) rfl
  have ror_mem := Laws.row_mem (k := 27) rfl
  refine ⟨fun x => wordsMean_of_row rol_mem (by cases x <;> rfl),
    fun x => wordsMean_of_row ror_mem (by cases x <;> rfl), fun rd rs1 rs2 s => ?_⟩
  have amount_lt : s.regNat rs2 % s.xlen.bits < s.xlen.bits :=
    Nat.mod_lt _ (Nat.lt_of_lt_of_le (by decide) s.xlen.word_le_bits)
  rw [← amountXlen_reg] at amount_lt ⊢
  exact ⟨⟨_, .of_retire rfl, isRotatedLeft_rotateLeft _ amount_lt⟩,
    ⟨_, .of_retire rfl, isRotatedRight_rotateRight _ amount_lt⟩⟩

/-- Settles O14: both rotates are within the low word, by an amount less than 32. -/
theorem wordRotatesByRegister : Obligations.WordRotatesByRegister := by
  obtain ⟨rolw_means, rolw_unspecified⟩ := wordRow_words (Laws.row_mem (k := 26) rfl) (by decide)
  obtain ⟨rorw_means, rorw_unspecified⟩ := wordRow_words (Laws.row_mem (k := 31) rfl) (by decide)
  refine ⟨rolw_means, rolw_unspecified, rorw_means, rorw_unspecified, fun rd rs1 rs2 s hx => ?_⟩
  have amount_lt : amountWord (s.reg rs2) < 32 := BitVec.isLt _
  rw [← amountWord_reg]
  exact ⟨completes_with_word_op (spec := (IsRotatedLeft 32 · _ ·)) (isRotatedLeft_mod_iff 32 · _ ·)
      (isRotatedLeft_rotateLeft · amount_lt) hx rfl,
    completes_with_word_op (spec := (IsRotatedRight 32 · _ ·)) (isRotatedRight_mod_iff 32 · _ ·)
      (isRotatedRight_rotateRight · amount_lt) hx rfl⟩

/-- Settles O15: each encoding is a row of one width, and the words with shamt[5] = 1 have a reserved pattern. -/
theorem roriRotatesRight : Obligations.RoriRotatesRight := by
  have rv32_mem := Laws.row_mem (k := 28) rfl
  have rv64_mem := Laws.row_mem (k := 29) rfl
  have reserved : 0x62005013#32 ∈ reservedPatterns := by decide
  refine ⟨wordsMean_of_row rv32_mem rfl, wordsMean_of_row rv64_mem rfl,
    fun w hw => decodeWord_of_mem_reservedPatterns (hw ▸ reserved), fun rd rs1 s => ?_⟩
  exact completes_with_immediate (fun _ v _ hk => isRotatedRight_rotateRight v hk) (fun _ => rfl) (fun _ => rfl)

/-- Settles O16: the rotate of `rorw`, by a 5-bit immediate. -/
theorem roriwRotatesLowWord : Obligations.RoriwRotatesLowWord := by
  obtain ⟨means, unspecified⟩ := wordRow_words (Laws.row_mem (k := 30) rfl) (by decide)
  exact ⟨means, unspecified, fun rd rs1 shamt s hx =>
    completes_with_word_op (spec := (IsRotatedRight 32 · _ ·)) (isRotatedRight_mod_iff 32 · _ ·)
      (isRotatedRight_rotateRight · shamt.isLt) hx rfl⟩

end Sys2Proof.Machine

/-! # Byte operations (O17, O18) -/

namespace Sys2Proof.Machine

/-! ## The bytes of a value -/

/-- The bytes of a value are the bytes of its number. -/
theorem toNat_byteAt (v : BitVec n) (k : Nat) : (byteAt v k).toNat = byteOf v.toNat k := by
  have byte_place : 2 ^ (8 * k) = 256 ^ k := pow_mul 2 8 k
  rw [byteAt, BitVec.extractLsb'_toNat, Nat.shiftRight_eq_div_pow, byte_place]
  rfl

/-- A byte inside the width of a value that holds one byte at place `j`. -/
theorem byteAt_placed (b : BitVec 8) (j : Nat) {k : Nat} (hk : 8 * (k + 1) ≤ n) :
    byteAt (b.setWidth n <<< (8 * j)) k = if k = j then b else 0 := by
  refine BitVec.eq_of_getLsbD_eq fun i hi => ?_
  have inside : 8 * k + i < n := by omega
  rw [byteAt, BitVec.getLsbD_extractLsb', BitVec.getLsbD_shiftLeft, BitVec.getLsbD_setWidth]
  obtain below | same | above := Nat.lt_trichotomy k j
  · have before : 8 * k + i < 8 * j := by omega
    simp [before, below.ne]
  · subst same
    have fits : i < n := by omega
    simp [inside, fits, hi]
  · have past : 8 ≤ 8 * k + i - 8 * j := by omega
    simp [BitVec.getLsbD_of_ge b _ past, above.ne']

/-- A byte inside the width of a value built byte by byte: the one put there, or 0 past the last. -/
theorem byteAt_ofBytes (byte : Nat → BitVec 8) (count : Nat) {k : Nat} (hk : 8 * (k + 1) ≤ n) :
    byteAt (ofBytes byte count : BitVec n) k = if k < count then byte k else 0 := by
  induction count with
  | zero => exact BitVec.extractLsb'_zero
  | succ count ih =>
    have joined : byteAt (ofBytes byte (count + 1) : BitVec n) k =
        byteAt (ofBytes byte count : BitVec n) k ||| byteAt ((byte count).setWidth n <<< (8 * count)) k :=
      BitVec.extractLsb'_or
    rw [joined, ih, byteAt_placed _ _ hk]
    obtain below | same | above := Nat.lt_trichotomy k count
    · simp [below, below.ne, below.le]
    · simp [same]
    · simp [above.le, above.ne', Nat.not_le.mpr above]

/-- A byte of a value whose every byte is built from a function. -/
theorem byteAt_ofBytes_full (byte : Nat → BitVec 8) {k : Nat} (hk : k < n / 8) :
    byteAt (ofBytes byte (n / 8) : BitVec n) k = byte k := by
  rw [byteAt_ofBytes byte _ (by omega), if_pos hk]

/-- The bytes of the OR-combine (R95). -/
theorem byteAt_orCombine (v : BitVec n) {k : Nat} (hk : k < n / 8) :
    byteAt (orCombine v) k = if byteAt v k = 0 then 0x00 else 0xFF :=
  byteAt_ofBytes_full _ hk

/-- The bytes of the byte reversal (R96). -/
theorem byteAt_reverseBytes (v : BitVec n) {k : Nat} (hk : k < n / 8) :
    byteAt (reverseBytes v) k = byteAt v (n / 8 - 1 - k) :=
  byteAt_ofBytes_full _ hk

/-- The bytes of the OR-combine as numbers: a byte is 0 when its number is. -/
theorem byteOf_orCombine (v : BitVec n) {k : Nat} (hk : k < n / 8) :
    byteOf (orCombine v).toNat k = if byteOf v.toNat k = 0 then 0 else 255 := by
  have zero_iff : byteAt v k = 0 ↔ byteOf v.toNat k = 0 := by
    rw [← toNat_byteAt]
    exact BitVec.toNat_eq
  rw [← toNat_byteAt, byteAt_orCombine v hk, apply_ite BitVec.toNat]
  exact if_congr zero_iff rfl rfl

/-! ## The reversed bytes as a result -/

/-- An instruction of one width that retires the reversed bytes of a register completes with them. -/
theorem Completes.of_reverseBytes {i : Instr} {s : State} {x : Xlen} {rs1 : Reg} (hx : s.xlen = x)
    (h : exec i s = s.onlyOn x (.next (s.retire i.dest (reverseBytes (s.reg rs1))))) :
    ∃ v, Completes i s v ∧
      ∀ k, k < x.bits / 8 → byteOf v k = byteOf (s.regNat rs1) (x.bits / 8 - 1 - k) := by
  refine ⟨_, .of_onlyOn hx h, fun k hk => ?_⟩
  subst hx
  rw [← toNat_byteAt, byteAt_reverseBytes _ hk, toNat_byteAt]
  rfl

/-! ## The statements -/

/-- Settles O17: the model builds the result byte by byte. -/
theorem orcBFillsNonzeroBytes : Obligations.OrcBFillsNonzeroBytes := by
  have orcB_mem := Laws.row_mem (k := 32) rfl
  exact ⟨fun x => wordsMean_of_row orcB_mem (by cases x <;> rfl), fun rd rs1 s =>
    ⟨_, .of_retire rfl, fun k hk => byteOf_orCombine (s.reg rs1) hk⟩⟩

/-- Settles O18: each encoding is a row of one width, whose words match nothing at the other; both reverse the bytes of
the register. -/
theorem rev8ReversesBytes : Obligations.Rev8ReversesBytes := by
  have rv32_mem := Laws.row_mem (k := 33) rfl
  have rv64_mem := Laws.row_mem (k := 34) rfl
  have rv32_words_at64 : MatchesNothing .rv64 0x69805013#32 maskU := by decide +kernel
  have rv64_words_at32 : MatchesNothing .rv32 0x6B805013#32 maskU := by decide +kernel
  exact ⟨wordsMean_of_row rv32_mem rfl, wordsMean_of_row rv64_mem rfl, rv32_words_at64.wordsUnspecified,
    rv64_words_at32.wordsUnspecified, fun rd rs1 s =>
    ⟨fun hx => Completes.of_reverseBytes hx rfl, fun hx => Completes.of_reverseBytes hx rfl⟩⟩

end Sys2Proof.Machine

/-! # Decoding and encoding (O29, O30, O31, O36) -/

namespace Sys2Proof

/-! ## The word of a row's instruction -/

/-- Under the fixed fields of format R, a word is rebuilt from its operand fields (R33). -/
theorem encodeR_fields {f7 : BitVec 7} {f3 : BitVec 3} {op : BitVec 7} {w : InstWord}
    (h : w &&& maskR = encodeR f7 f3 op 0#5 0#5 0#5) : encodeR f7 f3 op (rdOf w) (rs1Of w) (rs2Of w) = w := by
  refine word_ext fun k hk => ?_
  have fixed := congrArg (BitVec.getLsbD · k) h
  simp only [BitVec.getLsbD_and, getLsbD_encodeR, rdOf, rs1Of, rs2Of, BitVec.getLsbD_extractLsb'] at fixed ⊢
  interval_cases k <;> simp_all [maskR]

/-- Under the fixed fields of format U, a word is rebuilt from its operand fields (R34). -/
theorem encodeU_fields {f12 : BitVec 12} {f3 : BitVec 3} {op : BitVec 7} {w : InstWord}
    (h : w &&& maskU = encodeU f12 f3 op 0#5 0#5) : encodeU f12 f3 op (rdOf w) (rs1Of w) = w := by
  refine word_ext fun k hk => ?_
  have fixed := congrArg (BitVec.getLsbD · k) h
  simp only [BitVec.getLsbD_and, getLsbD_encodeU, rdOf, rs1Of, BitVec.getLsbD_extractLsb'] at fixed ⊢
  interval_cases k <;> simp_all [maskU]

/-- Under the fixed fields of format I6, a word is rebuilt from its operand fields (R35). -/
theorem encodeI6_fields {f6 : BitVec 6} {f3 : BitVec 3} {op : BitVec 7} {w : InstWord}
    (h : w &&& maskI6 = encodeI6 f6 f3 op 0#5 0#5 0#6) : encodeI6 f6 f3 op (rdOf w) (rs1Of w) (shamt6Of w) = w := by
  refine word_ext fun k hk => ?_
  have fixed := congrArg (BitVec.getLsbD · k) h
  simp only [BitVec.getLsbD_and, getLsbD_encodeI6, rdOf, rs1Of, shamt6Of, BitVec.getLsbD_extractLsb'] at fixed ⊢
  interval_cases k <;> simp_all [maskI6]

/-- The encoder gives a word of the row back from the instruction the row makes of it. -/
def Row.Reencodes (r : Row) : Prop := ∀ w, w &&& r.mask = r.pattern → encode (r.build w) = w

section Formats
variable {mn : String} {at32 at64 : Bool} {p : InstWord} {f7 : BitVec 7} {f12 : BitVec 12} {f6 : BitVec 6}
  {f3 : BitVec 3} {op : BitVec 7}

/-- A row of format R whose instructions the encoder writes with the pattern's fixed fields. -/
theorem Row.Reencodes.ofR {mk : Reg → Reg → Reg → Instr}
    (h : ∀ rd rs1 rs2, encode (mk rd rs1 rs2) = encodeR f7 f3 op rd rs1 rs2)
    (hp : p = encodeR f7 f3 op 0#5 0#5 0#5) : (rowR mn at32 at64 p mk).Reencodes :=
  fun _ hw => (h ..).trans (encodeR_fields (hw.trans hp))

/-- A row of format U whose instructions the encoder writes with the pattern's fixed fields. -/
theorem Row.Reencodes.ofU {mk : Reg → Reg → Instr}
    (h : ∀ rd rs1, encode (mk rd rs1) = encodeU f12 f3 op rd rs1)
    (hp : p = encodeU f12 f3 op 0#5 0#5) : (rowU mn at32 at64 p mk).Reencodes :=
  fun _ hw => (h ..).trans (encodeU_fields (hw.trans hp))

/-- A row of format I5 whose instructions the encoder writes with the pattern's fixed fields. -/
theorem Row.Reencodes.ofI5 {mk : Reg → Reg → BitVec 5 → Instr}
    (h : ∀ rd rs1 shamt, encode (mk rd rs1 shamt) = encodeI5 f7 f3 op rd rs1 shamt)
    (hp : p = encodeR f7 f3 op 0#5 0#5 0#5) : (rowI5 mn at32 at64 p mk).Reencodes :=
  fun _ hw => (h ..).trans (encodeR_fields (hw.trans hp))

/-- A row of format I6 whose instructions the encoder writes with the pattern's fixed fields. -/
theorem Row.Reencodes.ofI6 {mk : Reg → Reg → BitVec 6 → Instr}
    (h : ∀ rd rs1 shamt, encode (mk rd rs1 shamt) = encodeI6 f6 f3 op rd rs1 shamt)
    (hp : p = encodeI6 f6 f3 op 0#5 0#5 0#6) : (rowI6 mn at32 at64 p mk).Reencodes :=
  fun _ hw => (h ..).trans (encodeI6_fields (hw.trans hp))

end Formats

/-- Every row reencodes: the rows of R37 in their order, each by its format. -/
theorem rows_reencode : rows.Forall Row.Reencodes := by
  refine ⟨?addUw, ?sh1add, ?sh1addUw, ?sh2add, ?sh2addUw, ?sh3add, ?sh3addUw, ?slliUw, ?andn, ?orn, ?xnor,
    ?clz, ?clzw, ?ctz, ?ctzw, ?cpop, ?cpopw, ?max, ?maxu, ?min, ?minu, ?sextB, ?sextH, ?zextHRv32, ?zextHRv64,
    ?rol, ?rolw, ?ror, ?roriRv32, ?roriRv64, ?roriw, ?rorw, ?orcB, ?rev8Rv32, ?rev8Rv64, ?clmul, ?clmulh, ?clmulr,
    ?bclr, ?bclriRv32, ?bclriRv64, ?bext, ?bextiRv32, ?bextiRv64, ?binv, ?binviRv32, ?binviRv64,
    ?bset, ?bsetiRv32, ?bsetiRv64⟩
  case slliUw | roriRv64 | bclriRv64 | bextiRv64 | binviRv64 | bsetiRv64 => exact .ofI6 (fun _ _ _ => rfl) rfl
  case roriRv32 | roriw | bclriRv32 | bextiRv32 | binviRv32 | bsetiRv32 => exact .ofI5 (fun _ _ _ => rfl) rfl
  case clz | clzw | ctz | ctzw | cpop | cpopw | sextB | sextH | zextHRv32 | zextHRv64 | orcB | rev8Rv32 | rev8Rv64 =>
    exact .ofU (fun _ _ => rfl) rfl
  all_goals exact .ofR (fun _ _ _ => rfl) rfl

/-- The instructions a row makes exist at the widths of its XLEN column (R37). -/
theorem Row.validAt_build {r : Row} (hr : r ∈ rows) (x : Xlen) (w : InstWord) :
    (r.build w).validAt x = r.admits x := by
  have column : rows.map (fun r => (r.build w).validAt x) = rows.map (Row.admits · x) := by cases x <;> rfl
  exact List.map_inj_left.mp column r hr

/-! ## Rows of one width (R38) -/

/-- Clashing is symmetric. -/
theorem Clash.symm {p m q n : InstWord} (clash : Clash p m q n) : Clash q n p m := by
  rwa [Clash, BitVec.xor_comm, BitVec.and_comm n m]

/-- Rows at different places of the table that share an XLEN clash. -/
theorem rows_clash_of_ne {x : Xlen} {j k : Nat} {r q : Row} (hr : rows[j]? = some r) (hq : rows[k]? = some q)
    (hne : j ≠ k) (hrx : r.admits x = true) (hqx : q.admits x = true) : Clash r.pattern r.mask q.pattern q.mask := by
  obtain ⟨hj, rfl⟩ := List.getElem?_eq_some_iff.mp hr
  obtain ⟨hk, rfl⟩ := List.getElem?_eq_some_iff.mp hq
  have pairwise := List.pairwise_iff_getElem.mp (rows_pairwise_clash x)
  obtain before | after := Nat.lt_or_gt_of_ne hne
  · exact pairwise j k hj hk before hrx hqx
  · exact Clash.symm (pairwise k j hk hj after hqx hrx)

/-! ## The statements -/

namespace Machine

/-- Settles O29: every instruction has a row of its own, and at one width a word selects at most one row. -/
theorem decodeOfEncodeIsTheInstruction : Obligations.DecodeOfEncodeIsTheInstruction :=
  fun _ _ wf => decodeWord_encode wf

/-- The word that decodes is the instruction's own, and the instruction is one of the hart's width. -/
theorem encode_of_decodeWord {x : Xlen} {w : InstWord} {i : Instr} (h : decodeWord x w = .ok i) :
    encode i = w ∧ i.WellFormed x := by
  obtain ⟨r, hr, hsel, rfl⟩ := decodeWord_ok h
  obtain ⟨hadmits, hmatch⟩ := (r.selects_iff x w).mp hsel
  exact ⟨List.forall_iff_forall_mem.mp rows_reencode r hr w hmatch, (Row.validAt_build hr x w).trans hadmits⟩

/-- Settles O30: the row that selected the word reencodes it. -/
theorem encodeOfDecodeIsTheWord : Obligations.EncodeOfDecodeIsTheWord :=
  fun _ _ _ h => encode_of_decodeWord h

/-- Settles O31: the table's rows clash pairwise, and no word matches both of two patterns that clash. -/
theorem rowsOfOneWidthAreDisjoint : Obligations.RowsOfOneWidthAreDisjoint := by
  refine ⟨rfl, fun x j k r q hr hq hne hrx hqx => ?_⟩
  have clash := rows_clash_of_ne hr hq hne hrx hqx
  refine ⟨clash, fun w ⟨hrw, hqw⟩ => ?_⟩
  obtain ⟨_, hmatch⟩ := (r.selects_iff x w).mp hrw
  exact Bool.noConfusion (hqw.symm.trans (Clash.not_selects hmatch fun _ => clash))

/-- Settles O36: four little-endian bytes of each vector, decoded by the table. -/
theorem decodeVectorsOfTheSpec : Obligations.DecodeVectorsOfTheSpec :=
  ⟨rfl, rfl, rfl, rfl, rfl, rfl⟩

end Machine

end Sys2Proof

/-! # Instructions and their words at the other width (O25, O26) -/

namespace Sys2Proof

/-! ## Rows of one width without an immediate (R42, R43) -/

/-- The five mnemonics whose RV32 and RV64 encodings differ in the width of the immediate alone (R35, R45). -/
def immediateMnemonics : List String := ["rori", "bclri", "bexti", "binvi", "bseti"]

/-- At a width that its XLEN column leaves out, the words of any other row match nothing. -/
theorem otherRows_match_nothing (x : Xlen) : ∀ r ∈ rows, immediateMnemonics.contains r.mnemonic = false →
    r.admits x = false → Machine.MatchesNothing x r.pattern r.mask := by
  cases x <;> decide +kernel

/-! ## The two encodings of an immediate (R35) -/

/-- A word of format I6 is one of format I5 with shamt[5] as the last bit of funct7. -/
theorem encodeI6_eq_encodeI5 (f6 : BitVec 6) (f3 : BitVec 3) (op : BitVec 7) (rd rs1 : Reg) (shamt : BitVec 6) :
    encodeI6 f6 f3 op rd rs1 shamt = encodeI5 (f6 ++ shamt.extractLsb' 5 1) f3 op rd rs1 (shamt.setWidth 5) := by
  refine word_ext fun k hk => ?_
  rw [encodeI5_eq_encodeR, getLsbD_encodeI6, getLsbD_encodeR, BitVec.getLsbD_append]
  interval_cases k <;> simp

/-- Bit 5 of a 6-bit amount as a field of one bit. -/
theorem shamt_bit5_field (shamt : BitVec 6) : shamt.extractLsb' 5 1 = BitVec.ofBool (shamt.getLsbD 5) := by
  refine BitVec.eq_of_getLsbD_eq fun k hk => ?_
  obtain rfl : k = 0 := by omega
  simp

/-- A 6-bit amount below 32 has bit 5 clear. -/
theorem shamt_bit5_iff (shamt : BitVec 6) : shamt.getLsbD 5 = true ↔ 32 ≤ shamt.toNat := by
  revert shamt
  decide

namespace Machine

/-- The RV32 and RV64 rows of one mnemonic with an immediate, which do the same to the state, by amount: their words,
their widths and their meanings, and the reserved words with shamt[5] = 1. -/
structure ImmediatePair (mk5 : Reg → Reg → BitVec 5 → Instr) (mk6 : Reg → Reg → BitVec 6 → Instr)
    (f6 : BitVec 6) (f3 : BitVec 3) (effect : Reg → Reg → Nat → State → Out) : Prop where
  word5 : ∀ rd rs1 shamt, encode (mk5 rd rs1 shamt) = encodeI5 (f6 ++ 0#1) f3 opcodeOpImm rd rs1 shamt
  word6 : ∀ rd rs1 shamt, encode (mk6 rd rs1 shamt) = encodeI6 f6 f3 opcodeOpImm rd rs1 shamt
  width5 : ∀ rd rs1 shamt, (mk5 rd rs1 shamt).WellFormed .rv32
  width6 : ∀ rd rs1 shamt, (mk6 rd rs1 shamt).WellFormed .rv64
  exec5 : ∀ rd rs1 shamt s, exec (mk5 rd rs1 shamt) s = effect rd rs1 shamt.toNat s
  exec6 : ∀ rd rs1 shamt s, exec (mk6 rd rs1 shamt) s = s.unlessReserved shamt (effect rd rs1 shamt.toNat s)
  reserved : encodeI5 (f6 ++ 1#1) f3 opcodeOpImm 0#5 0#5 0#5 ∈ reservedPatterns

section Pair
variable {mk5 : Reg → Reg → BitVec 5 → Instr} {mk6 : Reg → Reg → BitVec 6 → Instr} {f6 : BitVec 6} {f3 : BitVec 3}
  {effect : Reg → Reg → Nat → State → Out} (pair : ImmediatePair mk5 mk6 f6 f3 effect) (rd rs1 : Reg)
include pair

/-- With shamt[5] = 0 the two encodings are one word. -/
theorem ImmediatePair.encode_eq {shamt : BitVec 6} (low : shamt.getLsbD 5 = false) :
    encode (mk6 rd rs1 shamt) = encode (mk5 rd rs1 (shamt.setWidth 5)) := by
  rw [pair.word6, pair.word5, encodeI6_eq_encodeI5, shamt_bit5_field, low]
  rfl

/-- With shamt[5] = 0 the two rows do the same at either width. -/
theorem ImmediatePair.exec_eq {shamt : BitVec 6} (low : shamt.getLsbD 5 = false) (s : State) :
    exec (mk6 rd rs1 shamt) s = exec (mk5 rd rs1 (shamt.setWidth 5)) s := by
  have small : shamt.toNat < 32 := Nat.lt_of_not_le fun high =>
    Bool.noConfusion (low.symm.trans ((shamt_bit5_iff shamt).mpr high))
  have amount : (shamt.setWidth 5).toNat = shamt.toNat := by
    rw [BitVec.toNat_setWidth]
    exact Nat.mod_eq_of_lt small
  have passes : ¬(s.xlen = .rv32 ∧ shamt.getLsbD 5 = true) := fun ⟨_, high⟩ =>
    Bool.noConfusion (low.symm.trans high)
  rw [pair.exec6, pair.exec5, amount, State.unlessReserved, if_neg passes]

/-- At XLEN = 32 the RV64 row with shamt[5] = 1 is refused as reserved (R45). -/
theorem ImmediatePair.refused {shamt : BitVec 6} (high : shamt.getLsbD 5 = true) {s : State} (hx : s.xlen = .rv32) :
    RefusedReserved (mk6 rd rs1 shamt) s :=
  (pair.exec6 ..).trans (if_pos ⟨hx, high⟩)

/-- At XLEN = 32 the word of the RV64 row with shamt[5] = 1 is reserved (R45). -/
theorem ImmediatePair.decodeWord_reserved {shamt : BitVec 6} (high : shamt.getLsbD 5 = true) :
    decodeWord .rv32 (encode (mk6 rd rs1 shamt)) = .error .reservedEncoding := by
  refine decodeWord_of_mem_reservedPatterns ?_
  rw [pair.word6, encodeI6_eq_encodeI5, encodeI5_mask, shamt_bit5_field, high]
  exact pair.reserved

/-- The RV32 row does what its word does: at XLEN = 64 the word is the RV64 row's with shamt[5] = 0. -/
theorem ImmediatePair.agrees5 (shamt : BitVec 5) (s : State) :
    exec (mk5 rd rs1 shamt) s = executeWord (encode (mk5 rd rs1 shamt)) s := by
  have low : (shamt.setWidth 6).getLsbD 5 = false := by simp
  have back : (shamt.setWidth 6).setWidth 5 = shamt := by simp
  rw [executeWord]
  cases s.xlen with
  | rv32 => rw [decodeWord_encode (pair.width5 ..)]
  | rv64 =>
    rw [← back, ← pair.encode_eq rd rs1 low, decodeWord_encode (pair.width6 ..)]
    exact (pair.exec_eq rd rs1 low s).symm

/-- The RV64 row does what its word does: at XLEN = 32 the word is the RV32 row's or reserved, by shamt[5]. -/
theorem ImmediatePair.agrees6 (shamt : BitVec 6) (s : State) :
    exec (mk6 rd rs1 shamt) s = executeWord (encode (mk6 rd rs1 shamt)) s := by
  cases bit5 : shamt.getLsbD 5 with
  | false => rw [pair.exec_eq rd rs1 bit5, pair.encode_eq rd rs1 bit5, pair.agrees5]
  | true =>
    rw [executeWord]
    cases hx : s.xlen with
    | rv32 =>
      rw [pair.decodeWord_reserved rd rs1 bit5]
      exact pair.refused rd rs1 bit5 hx
    | rv64 => rw [decodeWord_encode (pair.width6 ..)]

end Pair

/-- The two rows of `rori` (R88). -/
theorem rori_pair : ImmediatePair .roriRv32 .roriRv64 0x18 5
    fun rd rs1 k s => .next (s.retire rd (rotateRight (s.reg rs1) k)) :=
  ⟨fun _ _ _ => rfl, fun _ _ _ => rfl, fun _ _ _ => rfl, fun _ _ _ => rfl, fun _ _ _ _ => rfl, fun _ _ _ _ => rfl,
    by decide⟩

/-- The two rows of `bclri` (R106). -/
theorem bclri_pair : ImmediatePair .bclriRv32 .bclriRv64 0x12 1
    fun rd rs1 k s => .next (s.retire rd (clearBit (s.reg rs1) k)) :=
  ⟨fun _ _ _ => rfl, fun _ _ _ => rfl, fun _ _ _ => rfl, fun _ _ _ => rfl, fun _ _ _ _ => rfl, fun _ _ _ _ => rfl,
    by decide⟩

/-- The two rows of `bexti` (R108). -/
theorem bexti_pair : ImmediatePair .bextiRv32 .bextiRv64 0x12 5
    fun rd rs1 k s => .next (s.retire rd (extractBit (s.reg rs1) k)) :=
  ⟨fun _ _ _ => rfl, fun _ _ _ => rfl, fun _ _ _ => rfl, fun _ _ _ => rfl, fun _ _ _ _ => rfl, fun _ _ _ _ => rfl,
    by decide⟩

/-- The two rows of `binvi` (R110). -/
theorem binvi_pair : ImmediatePair .binviRv32 .binviRv64 0x1a 1
    fun rd rs1 k s => .next (s.retire rd (invertBit (s.reg rs1) k)) :=
  ⟨fun _ _ _ => rfl, fun _ _ _ => rfl, fun _ _ _ => rfl, fun _ _ _ => rfl, fun _ _ _ _ => rfl, fun _ _ _ _ => rfl,
    by decide⟩

/-- The two rows of `bseti` (R112). -/
theorem bseti_pair : ImmediatePair .bsetiRv32 .bsetiRv64 0x0a 1
    fun rd rs1 k s => .next (s.retire rd (setBit (s.reg rs1) k)) :=
  ⟨fun _ _ _ => rfl, fun _ _ _ => rfl, fun _ _ _ => rfl, fun _ _ _ => rfl, fun _ _ _ _ => rfl, fun _ _ _ _ => rfl,
    by decide⟩

/-! ## The statements -/

/-- An instruction without one of these immediates is refused at the width its row does not list, and so is its
word. -/
theorem refusedUnspecified_of_not_validAt {i : Instr} {s : State}
    (himm : immediateMnemonics.contains i.mnemonic = false) (hx : i.validAt s.xlen = false) :
    RefusedUnspecified i s ∧ decodeWord s.xlen (encode i) = .error .unspecifiedWord := by
  constructor
  · have ne {y : Xlen} (h : (s.xlen == y) = false) : s.xlen ≠ y := ne_of_beq_false h
    cases i with
    | sh1add | sh2add | sh3add | andn | orn | xnor | clz | ctz | cpop | max | maxu | min | minu | sextB | sextH
    | rol | ror | orcB | clmul | clmulh | clmulr | bclr | bext | binv | bset => exact Bool.noConfusion hx
    | addUw | sh1addUw | sh2addUw | sh3addUw | slliUw | clzw | ctzw | cpopw | zextHRv32 | zextHRv64 | rolw | roriw
    | rorw | rev8Rv32 | rev8Rv64 => exact State.onlyOn_other (ne hx) _
    | roriRv32 | roriRv64 | bclriRv32 | bclriRv64 | bextiRv32 | bextiRv64 | binviRv32 | binviRv64 | bsetiRv32
    | bsetiRv64 => exact Bool.noConfusion himm
  · obtain ⟨r, hr, hmnemonic, hadmits, hmatch, _⟩ := hasRow i
    have nothing := otherRows_match_nothing s.xlen r hr (hmnemonic ▸ himm) ((hadmits _).trans hx)
    exact nothing.wordsUnspecified _ hmatch

/-- Settles O25: a word of the hart's width decodes to its instruction. At the other width, the two encodings of an
immediate agree by their pair, and every other instruction is refused like its word. -/
theorem execAgreesWithTheInstructionsWord : Obligations.ExecAgreesWithTheInstructionsWord := by
  intro i s
  cases himm : immediateMnemonics.contains i.mnemonic with
  | true =>
    cases i with
    | roriRv32 => exact rori_pair.agrees5 ..
    | roriRv64 => exact rori_pair.agrees6 ..
    | bclriRv32 => exact bclri_pair.agrees5 ..
    | bclriRv64 => exact bclri_pair.agrees6 ..
    | bextiRv32 => exact bexti_pair.agrees5 ..
    | bextiRv64 => exact bexti_pair.agrees6 ..
    | binviRv32 => exact binvi_pair.agrees5 ..
    | binviRv64 => exact binvi_pair.agrees6 ..
    | bsetiRv32 => exact bseti_pair.agrees5 ..
    | bsetiRv64 => exact bseti_pair.agrees6 ..
    | _ => exact Bool.noConfusion himm
  | false =>
    rw [executeWord]
    cases hx : i.validAt s.xlen with
    | true => rw [decodeWord_encode hx]
    | false =>
      obtain ⟨refused, unspecified⟩ := refusedUnspecified_of_not_validAt himm hx
      rw [unspecified]
      exact refused

/-- Every instruction of a list is one of another width, without an immediate of two encodings. -/
def allOfOtherWidth (x : Xlen) (is : List Instr) : Bool :=
  is.all fun i => !i.validAt x && !immediateMnemonics.contains i.mnemonic

/-- The instructions of such a list are refused as unspecified words. -/
theorem refusedUnspecified_of_all {is : List Instr} {s : State} (h : allOfOtherWidth s.xlen is = true) :
    ∀ i ∈ is, RefusedUnspecified i s := by
  intro i hi
  have other := List.all_eq_true.mp h i hi
  simp only [Bool.and_eq_true, Bool.not_eq_true'] at other
  obtain ⟨invalid, himm⟩ := other
  exact (refusedUnspecified_of_not_validAt himm invalid).1

/-- Settles O26: the lists hold instructions of the other width, and the five pairs give the rest. -/
theorem otherWidthRowsDoWhatTheirWordDoes : Obligations.OtherWidthRowsDoWhatTheirWordDoes := by
  intro rd rs1 rs2 shamt s
  refine ⟨fun hx => ⟨refusedUnspecified_of_all (hx ▸ rfl), fun high i hi => ?reserved⟩, fun hx => ?rv64,
    fun low => ?same⟩
  case reserved =>
    have bit5 := (shamt_bit5_iff shamt).mpr high
    simp only [List.mem_cons, List.not_mem_nil, or_false] at hi
    obtain rfl | rfl | rfl | rfl | rfl := hi
    · exact rori_pair.refused rd rs1 bit5 hx
    · exact bclri_pair.refused rd rs1 bit5 hx
    · exact bexti_pair.refused rd rs1 bit5 hx
    · exact binvi_pair.refused rd rs1 bit5 hx
    · exact bseti_pair.refused rd rs1 bit5 hx
  case rv64 =>
    have refused : ∀ i ∈ [Instr.zextHRv32 rd rs1, .rev8Rv32 rd rs1], RefusedUnspecified i s :=
      refusedUnspecified_of_all (hx ▸ rfl)
    exact ⟨refused _ (by simp), refused _ (by simp)⟩
  case same =>
    have bit5 : shamt.getLsbD 5 = false :=
      Bool.eq_false_iff.mpr fun set => Nat.not_le_of_lt low ((shamt_bit5_iff shamt).mp set)
    exact ⟨rori_pair.exec_eq rd rs1 bit5 s, bclri_pair.exec_eq rd rs1 bit5 s, bexti_pair.exec_eq rd rs1 bit5 s,
      binvi_pair.exec_eq rd rs1 bit5 s, bseti_pair.exec_eq rd rs1 bit5 s⟩

end Machine

end Sys2Proof

/-! # Steps and runs (O37, O39, O41, O42, O44 to O46) -/

namespace Sys2Proof

/-- The size of the address space is a multiple of 4. -/
theorem Xlen.four_dvd_two_pow_bits (x : Xlen) : 4 ∣ 2 ^ x.bits :=
  pow_dvd_pow 2 (le_trans (by decide : 2 ≤ 32) x.word_le_bits)

namespace Machine

/-! ## One step -/

/-- A step with a clear mark whose fetched word decodes runs the instruction (R122). -/
theorem step_of_decode_ok {s : State} {w : InstWord} {i : Instr} (hm : s.mark = .clear) (hf : s.fetch = some w)
    (hd : decodeWord s.xlen w = .ok i) : step s = exec i s := by
  rw [step_of_fetch_some hm hf, executeWord, hd]

/-- Settles O37 by the fetch and decode stages of the step. -/
theorem stepRunsTheDecodedInstruction : Obligations.StepRunsTheDecodedInstruction :=
  fun _ _ _ hm hf hd => step_of_decode_ok hm hf hd

/-- A step with a clear mark executes exactly when the fetched word decodes: an instruction of the hart's width
completes (R122, R8). -/
theorem step_executes_iff {s : State} (hm : s.mark = .clear) :
    (∃ t, step s = .next t) ↔ ∃ w i, s.fetch = some w ∧ decodeWord s.xlen w = .ok i := by
  constructor
  · rintro ⟨t, ht⟩
    obtain ⟨_, w, i, hf, hd, _⟩ := step_next ht
    exact ⟨w, i, hf, hd⟩
  · rintro ⟨w, i, hf, hd⟩
    obtain ⟨_, wf⟩ := encode_of_decodeWord hd
    obtain ⟨v, hv⟩ := exec_of_wellFormed wf
    exact ⟨_, (step_of_decode_ok hm hf hd).trans hv⟩

/-! ## One step of an observed run -/

/-- An executed step is observed as its next state. -/
theorem advance_of_next {s t : State} (h : step s = .next t) : advance s = t := by
  rw [advance, h]

/-- The mark that an outcome without a next state leaves. -/
def stopMark : Out → Option Mark
  | .next _ => none
  | .fault r => some r.mark
  | .refused r => some r.mark

/-- The mark a stop leaves is set. -/
theorem stopMark_ne_clear {out : Out} {mark : Mark} (h : stopMark out = some mark) : mark ≠ .clear := by
  cases out with
  | next t => cases h
  | fault r => cases r; cases h; exact nofun
  | refused r => cases r <;> cases h <;> exact nofun

/-- A step that does not execute is observed as its mark (R122). -/
theorem advance_of_stop {s : State} {out : Out} {mark : Mark} (hs : step s = out) (hout : stopMark out = some mark) :
    advance s = { s with mark := mark } := by
  rw [advance, hs]
  cases out with
  | next t => cases hout
  | fault r | refused r => cases hout; rfl

/-- A marked state has no next state. -/
theorem step_marked_ne_next {s : State} (hm : s.mark ≠ .clear) (t : State) : step s ≠ .next t :=
  fun h => hm (step_next h).1

/-- An observed run leaves a marked state as it is: the mark is the one its reason leaves. -/
theorem advance_marked {s : State} (hm : s.mark ≠ .clear) : advance s = s := by
  obtain ⟨x, h, m, mark⟩ := s
  cases mark with
  | clear => exact absurd rfl hm
  | stuckFetch | reservedEncoding | unspecifiedWord => rfl

/-- Settles O39: with a row, the decoder answers the row's instruction, which is one of the hart's width and
completes; without one, the decoder's reason is the step's. -/
theorem stepHasExactlyTheFourOutcomes : Obligations.StepHasExactlyTheFourOutcomes := by
  refine ⟨fun s hm => ⟨fun hf => ?stuck, fun w hf => ⟨fun r hr hsel => ?executed, fun hnone =>
    ⟨fun reserved => ?reserved, fun unreserved => ?unspecified⟩⟩⟩,
    fun s hm => ⟨advance_marked hm, step_marked_ne_next hm⟩⟩
  case stuck =>
    have stuck := step_of_fetch_none hm hf
    exact ⟨stuck, advance_of_stop stuck rfl⟩
  case executed =>
    have hd := decodeWord_of_selects hr hsel
    obtain ⟨_, wf⟩ := encode_of_decodeWord hd
    obtain ⟨v, hv⟩ := exec_of_wellFormed wf
    exact ⟨_, _, (step_of_decode_ok hm hf hd).trans hv, hv, s.retire_writes _ v⟩
  case reserved =>
    have refused := step_of_decode_error hm hf ((decodeWord_reserved_iff _ w).mpr reserved)
    exact ⟨refused, advance_of_stop refused rfl⟩
  case unspecified =>
    have refused := step_of_decode_error hm hf ((decodeWord_unspecified_iff _ w).mpr ⟨hnone, unreserved⟩)
    exact ⟨refused, advance_of_stop refused rfl⟩

/-! ## What every step keeps -/

/-- The frame of an executed step: the `pc` moves on by 4, and XLEN, memory and the mark stay. -/
theorem step_next_frame {s t : State} (h : step s = .next t) :
    t.pcNat = (s.pcNat + 4) % 2 ^ s.xlen.bits ∧ t.xlen = s.xlen ∧ t.mem = s.mem ∧ t.mark = s.mark := by
  obtain ⟨rd, v, rfl⟩ := step_next_retire h
  exact ⟨(s.retire_writes rd v).pc, s.retire_xlen rd v, s.retire_mem rd v, s.retire_mark rd v⟩

/-- Settles O41: memory and XLEN stay, and 4 more than a multiple of 4 is one, also after the wrap. -/
theorem stepKeepsWellFormedness : Obligations.StepKeepsWellFormedness := by
  intro s t ⟨canonical, inRange, aligned⟩ h
  obtain ⟨hpc, hxlen, hmem, hmark⟩ := step_next_frame h
  refine ⟨⟨hmem ▸ canonical, hmem ▸ hxlen ▸ inRange, ?_⟩, hxlen, hmem, hmark⟩
  rw [hpc, Nat.mod_mod_of_dvd _ s.xlen.four_dvd_two_pow_bits, Nat.add_mod_right, aligned]

/-! ## Bounded runs -/

/-- The first step of a run that executes. -/
theorem runFor_succ_of_next {n : Nat} {s u : State} (h : step s = .next u) : runFor (n + 1) s = runFor n u := by
  rw [runFor, h]

/-- A run whose first step does not execute ends with that step's outcome. -/
theorem runFor_succ_of_stop {s : State} {out : Out} {mark : Mark} (hs : step s = out) (hout : stopMark out = some mark)
    (n : Nat) : runFor (n + 1) s = out := by
  rw [runFor, hs]
  cases out with
  | next t => cases hout
  | fault r | refused r => rfl

/-- All a run of n + 1 steps can do when it answers a next state: one step executes, and then n more. -/
theorem runFor_succ_next_iff {n : Nat} {s t : State} :
    runFor (n + 1) s = .next t ↔ ∃ u, step s = .next u ∧ runFor n u = .next t := by
  constructor
  · intro h
    cases hs : step s with
    | next u => exact ⟨u, rfl, (runFor_succ_of_next hs).symm.trans h⟩
    | fault r | refused r => cases (runFor_succ_of_stop hs rfl n).symm.trans h
  · rintro ⟨u, hs, hu⟩
    exact (runFor_succ_of_next hs).trans hu

/-- What holds of a state and every step carries from turn k to turn k + 1 holds after n steps of turn k + n. -/
theorem runFor_carries {P : Nat → State → Prop} (carry : ∀ k s t, P k s → step s = .next t → P (k + 1) t)
    {n k : Nat} {s t : State} (hs : P k s) (h : runFor n s = .next t) : P (k + n) t := by
  induction n generalizing s k with
  | zero => cases h; exact hs
  | succ n ih =>
    obtain ⟨u, hu, ht⟩ := runFor_succ_next_iff.mp h
    have carried := ih (carry k s u hs hu) ht
    rwa [Nat.add_right_comm, Nat.add_assoc] at carried

/-- Settles O42: well-formedness holds at the start and every step keeps it. -/
theorem pcStaysAMultipleOfFour : Obligations.PcStaysAMultipleOfFour := by
  intro n s t start h
  have wf : t.WF := runFor_carries (P := fun _ => State.WF) (k := 0)
    (fun _ s t hs ht => (stepKeepsWellFormedness s t hs ht).1) start.wf h
  exact wf.aligned

/-- Where a run stands after k executed steps from `s`: at `pc` + 4k, with XLEN, memory and the mark of `s`. -/
def StandsAt (s : State) (k : Nat) (t : State) : Prop :=
  t.pcNat = (s.pcNat + 4 * k) % 2 ^ s.xlen.bits ∧ t.xlen = s.xlen ∧ t.mem = s.mem ∧ t.mark = s.mark

/-- A run stands at its first state after no steps. -/
theorem standsAt_zero (s : State) : StandsAt s 0 s :=
  ⟨(Nat.mod_eq_of_lt s.hart.pc.isLt).symm, rfl, rfl, rfl⟩

/-- One more step. -/
theorem StandsAt.step {s t u : State} {k : Nat} (h : StandsAt s k t) (ht : step t = .next u) :
    StandsAt s (k + 1) u := by
  obtain ⟨hpc, hxlen, hmem, hmark⟩ := h
  obtain ⟨hpc', hxlen', hmem', hmark'⟩ := step_next_frame ht
  refine ⟨?_, hxlen'.trans hxlen, hmem'.trans hmem, hmark'.trans hmark⟩
  rw [hpc', hpc, hxlen, Nat.mod_add_mod, Nat.add_assoc, Nat.mul_succ]

/-- Where a run of n executed steps stands. -/
theorem standsAt_of_runFor {n : Nat} {s t : State} (h : runFor n s = .next t) : StandsAt s n t :=
  n.zero_add ▸ runFor_carries (P := StandsAt s) (fun _ _ _ => StandsAt.step) (standsAt_zero s) h

/-- Settles O44: every step carries where the run stands to the next turn. -/
theorem boundedRunAdvancesPc : Obligations.BoundedRunAdvancesPc :=
  fun _ _ _ h => standsAt_of_runFor h

/-! ## Safe runs -/

/-- The word at `pc` + 4k as a word: its four bytes are in memory, and it decodes. -/
theorem instructionAt_iff (s : State) (k : Nat) : InstructionAt s k ↔ ∃ w i,
    (∀ j, j < 4 → s.mem.read ((s.pcNat + 4 * k + j) % 2 ^ s.xlen.bits) = some (byteOfWord w j)) ∧
      decodeWord s.xlen w = .ok i := by
  constructor
  · rintro ⟨b0, b1, b2, b3, i, h0, h1, h2, h3, hd⟩
    obtain ⟨e0, e1, e2, e3⟩ := byteOfWord_wordOfBytes b0 b1 b2 b3
    refine ⟨wordOfBytes b0 b1 b2 b3, i, fun j hj => ?_, hd⟩
    interval_cases j
    · rwa [e0]
    · rwa [e1]
    · rwa [e2]
    · rwa [e3]
  · rintro ⟨w, i, reads, hd⟩
    rw [← wordOfBytes_byteOfWord w] at hd
    exact ⟨_, _, _, _, i, reads 0 (by decide), reads 1 (by decide), reads 2 (by decide), reads 3 (by decide), hd⟩

/-- The first word of a run is the one its first step fetches. -/
theorem instructionAt_zero_iff (s : State) :
    InstructionAt s 0 ↔ ∃ w i, s.fetch = some w ∧ decodeWord s.xlen w = .ok i := by
  simp only [instructionAt_iff, State.fetch_eq_some_iff, State.fetchAddr_eq, Nat.mul_zero, Nat.add_zero]

/-- After a step, the words of the run are one place nearer. -/
theorem instructionAt_of_step {s t : State} (h : step s = .next t) (k : Nat) :
    InstructionAt t k ↔ InstructionAt s (k + 1) := by
  obtain ⟨hpc, hxlen, hmem, _⟩ := step_next_frame h
  have place j : (t.pcNat + 4 * k + j) % 2 ^ s.xlen.bits = (s.pcNat + 4 * (k + 1) + j) % 2 ^ s.xlen.bits := by
    have moved : s.pcNat + 4 + (4 * k + j) = s.pcNat + 4 * (k + 1) + j := by omega
    rw [hpc, Nat.add_assoc, Nat.mod_add_mod, moved]
  simp only [instructionAt_iff, hxlen, hmem, place]

/-- A run of n + 1 steps is safe exactly when one step executes and leaves a safe run of n. -/
theorem safeFor_succ_iff (n : Nat) (s : State) : SafeFor (n + 1) s ↔ ∃ u, step s = .next u ∧ SafeFor n u := by
  simp only [SafeFor, runFor_succ_next_iff]
  exact ⟨fun ⟨t, u, hu, ht⟩ => ⟨u, hu, t, ht⟩, fun ⟨u, hu, t, ht⟩ => ⟨t, u, hu, ht⟩⟩

/-- Settles O45 by induction on the steps: the first one executes exactly when the first word is an instruction, and
after it the other words are one place nearer. -/
theorem safeRunsAreStraightLine : Obligations.SafeRunsAreStraightLine := by
  intro n
  induction n with
  | zero => exact fun s _ => iff_of_true ⟨s, rfl⟩ fun k hk => absurd hk k.not_lt_zero
  | succ n ih =>
    intro s hm
    have first := (step_executes_iff hm).trans (instructionAt_zero_iff s).symm
    have rest {u} (hu : step s = .next u) : SafeFor n u ↔ ∀ k, k < n → InstructionAt s (k + 1) := by
      obtain ⟨_, _, _, hmark⟩ := step_next_frame hu
      simpa only [instructionAt_of_step hu] using ih u (hmark.trans hm)
    rw [safeFor_succ_iff]
    constructor
    · rintro ⟨u, hu, safe⟩ k hk
      cases k with
      | zero => exact first.mp ⟨u, hu⟩
      | succ k => exact (rest hu).mp safe k (Nat.lt_of_succ_lt_succ hk)
    · intro words
      obtain ⟨u, hu⟩ := first.mpr (words 0 n.succ_pos)
      exact ⟨u, hu, (rest hu).mpr fun k hk => words (k + 1) (Nat.succ_lt_succ hk)⟩

/-! ## The end of a run -/

/-- An observed run leaves a marked state as it is for ever. -/
theorem observe_marked {s : State} (hm : s.mark ≠ .clear) (n : Nat) : observe n s = s := by
  induction n with
  | zero => rfl
  | succ n ih => rw [observe, advance_marked hm, ih]

/-- The run of n steps from `s` stops: after fewer than n executed steps, in the state `t` they leave, its next step
has the outcome `out`, and the run is observed at `t` with the mark `mark`. -/
def StopsWith (n : Nat) (s : State) (out : Out) (mark : Mark) : Prop :=
  ∃ m t, m < n ∧ runFor m s = .next t ∧ step t = out ∧ observe n s = { t with mark := mark } ∧ mark ≠ .clear

/-- A run whose first step stops. -/
theorem StopsWith.first {s : State} {out : Out} {mark : Mark} (hs : step s = out) (hout : stopMark out = some mark)
    (n : Nat) : StopsWith (n + 1) s out mark := by
  have hmark := stopMark_ne_clear hout
  refine ⟨0, s, n.succ_pos, rfl, hs, ?_, hmark⟩
  rw [observe, advance_of_stop hs hout]
  exact observe_marked hmark n

/-- A run that stops after its first step. -/
theorem StopsWith.later {n : Nat} {s u : State} {out : Out} {mark : Mark} (hs : step s = .next u)
    (h : StopsWith n u out mark) : StopsWith (n + 1) s out mark := by
  obtain ⟨m, t, hm, hrun, hstep, hobserve, hmark⟩ := h
  refine ⟨m + 1, t, Nat.succ_lt_succ hm, (runFor_succ_of_next hs).trans hrun, hstep, ?_, hmark⟩
  rw [observe, advance_of_next hs, hobserve]

/-- A safe run is observed as it is. -/
theorem observe_of_runFor {n : Nat} {s t : State} (h : runFor n s = .next t) : observe n s = t := by
  induction n generalizing s with
  | zero => cases h; rfl
  | succ n ih =>
    obtain ⟨u, hu, ht⟩ := runFor_succ_next_iff.mp h
    rw [observe, advance_of_next hu, ih ht]

/-- A run that ends without a next state stops with its outcome, by induction on the steps: the first one stops it, or
the rest of the run does. -/
theorem stopsWith_of_runFor {n : Nat} {s : State} {out : Out} {mark : Mark} (hout : stopMark out = some mark)
    (h : runFor n s = out) : StopsWith n s out mark := by
  induction n generalizing s with
  | zero => subst h; cases hout
  | succ n ih =>
    cases hs : step s with
    | next u => exact .later hs (ih ((runFor_succ_of_next hs).symm.trans h))
    | fault r | refused r =>
      obtain rfl := (runFor_succ_of_stop hs rfl n).symm.trans h
      exact .first hs hout n

/-- Settles O46: a stop is found at the step that does not execute, and its mark is never clear. -/
theorem stoppedRunKeepsItsMark : Obligations.StoppedRunKeepsItsMark := by
  refine ⟨fun n s hm => ⟨observe_marked hm n, fun safe => ?marked⟩, fun n s hm =>
    ⟨fun t ht => ⟨observe_of_runFor ht, ?executed⟩, fun _ => stopsWith_of_runFor rfl, fun _ => stopsWith_of_runFor rfl⟩⟩
  case marked =>
    obtain ⟨u, hu, _⟩ := (safeFor_succ_iff n s).mp safe
    exact step_marked_ne_next hm u hu
  case executed =>
    obtain ⟨_, _, _, hmark⟩ := standsAt_of_runFor ht
    exact hmark.trans hm

end Machine

end Sys2Proof

/-! # Start states and placed words (O47 to O51) -/

namespace Sys2Proof.Machine

/-! ## Start states -/

/-- A register other than `x0` reads its place in the register file (R11). -/
theorem Hart.reg_of_place {x : Xlen} (h : Hart x) (k : Fin 31) : h.reg (BitVec.ofNat 5 (k.val + 1)) = h.x[k] := by
  have number : (BitVec.ofNat 5 (k.val + 1)).toNat = k.val + 1 := by
    rw [BitVec.toNat_ofNat]
    exact Nat.mod_eq_of_lt (Nat.succ_lt_succ k.isLt)
  have nonzero : BitVec.ofNat 5 (k.val + 1) ≠ 0#5 := fun h0 => by
    rw [h0] at number
    exact Nat.succ_ne_zero _ number.symm
  simp only [Hart.reg, if_neg nonzero, number, Nat.add_sub_cancel, Fin.getElem_fin]

/-- A state with a clear mark is the start state of its own XLEN, memory and registers (R133). -/
theorem State.eq_start {s : State} (hm : s.mark = .clear) : s = State.start s.xlen s.mem s.hart.x s.hart.pc := by
  obtain ⟨x, h, m, mark⟩ := s
  cases hm
  rfl

/-- Settles O47: the fields of the tuple, and the register file read place by place. -/
theorem startStateHoldsItsArguments : Obligations.StartStateHoldsItsArguments := by
  intro x m regs pc0
  refine ⟨rfl, rfl, fun _ => rfl, rfl, fun k => ?_, rfl, fun canonical inRange aligned => ?_, fun s => State.eq_start⟩
  · exact congrArg BitVec.toNat (Hart.reg_of_place ⟨regs, pc0⟩ k)
  · exact ⟨⟨canonical, inRange, aligned⟩, rfl⟩

/-- Settles O48: no memory is listed, and 0 is a multiple of 4. -/
theorem resetIsAStartState : Obligations.ResetIsAStartState :=
  ⟨⟨List.Pairwise.nil, fun _ hc => absurd hc List.not_mem_nil, rfl⟩, rfl⟩

/-- Every register of a register file of zeros reads 0. -/
theorem Hart.reg_replicate_zero {x : Xlen} (pc : XWord x) (r : Reg) :
    Hart.reg ⟨Vector.replicate 31 0#x.bits, pc⟩ r = 0#x.bits := by
  unfold Hart.reg
  split
  · rfl
  · exact Vector.getElem_replicate _

/-- Settles O49: the register file of the reset state holds zeros. -/
theorem resetValues : Obligations.ResetValues :=
  ⟨rfl, rfl, rfl, fun r => congrArg BitVec.toNat (Hart.reg_replicate_zero _ r), fun _ => rfl⟩

/-! ## Placing a word -/

/-- The four addresses of the fetch are different. -/
theorem State.fetchAddr_ne (s : State) {j k : Nat} (hj : j < 4) (hk : k < 4) (hne : j ≠ k) :
    s.fetchAddr j ≠ s.fetchAddr k := by
  have four_le : 4 ≤ 2 ^ s.xlen.bits := Nat.le_of_dvd (Nat.two_pow_pos _) s.xlen.four_dvd_two_pow_bits
  rw [State.fetchAddr_eq, State.fetchAddr_eq]
  intro same
  have congruent : j ≡ k [MOD 2 ^ s.xlen.bits] := Nat.ModEq.add_left_cancel' s.pcNat same
  exact hne (congruent.eq_of_lt_of_lt (hj.trans_le four_le) (hk.trans_le four_le))

/-- An address of the fetch is one of XLEN bits. -/
theorem State.fetchAddr_lt (s : State) (k : Nat) : s.fetchAddr k < 2 ^ s.xlen.bits := BitVec.isLt _

/-- Memory after placing a word, address by address. -/
theorem State.read_loadWord (s : State) (w : InstWord) (a : Nat) : (s.loadWord w).mem.read a =
    if a = s.fetchAddr 3 then some (byteOfWord w 3) else if a = s.fetchAddr 2 then some (byteOfWord w 2)
    else if a = s.fetchAddr 1 then some (byteOfWord w 1) else if a = s.fetchAddr 0 then some (byteOfWord w 0)
    else s.mem.read a := by
  simp only [State.loadWord, State.loadWordAt, Memory.read_write, Nat.mul_zero, Nat.zero_add]

/-- The bytes of the placed word: no later write is to an earlier address. -/
theorem State.read_loadWord_placed (s : State) (w : InstWord) {k : Nat} (hk : k < 4) :
    (s.loadWord w).mem.read (s.fetchAddr k) = some (byteOfWord w k) := by
  have ne {j k} (hj : j < 4) (hk : k < 4) (h : j ≠ k) := s.fetchAddr_ne hj hk h
  rw [State.read_loadWord]
  interval_cases k <;> simp [ne]

/-- The next step fetches the placed word (R134, R22). -/
theorem State.fetch_loadWord (s : State) (w : InstWord) : (s.loadWord w).fetch = some w :=
  ((s.loadWord w).fetch_eq_some_iff w).mpr fun _ hk => s.read_loadWord_placed w hk

/-- Placing a word changes no byte elsewhere. -/
theorem State.read_loadWord_other (s : State) (w : InstWord) {a : Nat} (h : ∀ k, k < 4 → a ≠ s.fetchAddr k) :
    (s.loadWord w).mem.read a = s.mem.read a := by
  rw [State.read_loadWord, if_neg (h 3 (by decide)), if_neg (h 2 (by decide)), if_neg (h 1 (by decide)),
    if_neg (h 0 (by decide))]

/-- A write below a bound keeps memory below it. -/
theorem Memory.write_lt {m : Memory} {bound k : Nat} (h : ∀ c ∈ m, c.1 < bound) (hk : k < bound) (b : Byte) :
    ∀ c ∈ m.write k b, c.1 < bound := by
  intro c hc
  obtain rfl | hc := Memory.mem_write hc
  · exact hk
  · exact h c hc

/-- Placing a word keeps the invariant of the hart. -/
theorem State.WF.loadWord {s : State} (h : s.WF) (w : InstWord) : (s.loadWord w).WF where
  canonical := State.loadWordAt_wf h.canonical 0 w
  inRange := Memory.write_lt (Memory.write_lt (Memory.write_lt (Memory.write_lt h.inRange (s.fetchAddr_lt _) _)
    (s.fetchAddr_lt _) _) (s.fetchAddr_lt _) _) (s.fetchAddr_lt _) _
  aligned := h.aligned

/-- Settles O50 at the addresses of the fetch, which are different from each other. -/
theorem placedWordIsFetched : Obligations.PlacedWordIsFetched := by
  intro s w
  simp only [← State.fetchAddr_eq]
  exact ⟨s.fetch_loadWord w, fun _ => s.read_loadWord_other w, fun wf => wf.loadWord w⟩

/-! ## The placed instruction -/

/-- The bytes of a word decode as the word does. -/
theorem decodeWord_of_decodedAt {x : Xlen} {w : InstWord} {i : Instr} (h : decodedAt x w = some i) :
    decodeWord x w = .ok i := by
  rw [decodedAt, decodeBytes, wordOfBytes_byteOfWord] at h
  split at h
  · cases h; assumption
  · cases h

/-- The instruction the host's question answers has the word it was asked about, at whichever width it is read. -/
theorem encode_of_decodeTableWord {nbits w : Nat} {i : Instr} (h : decodeTableWord nbits w = some i) :
    encode i = tableWord nbits w := by
  unfold decodeTableWord at h
  split at h
  next hd =>
    cases h
    exact (encode_of_decodeWord (decodeWord_of_decodedAt hd)).1
  next => exact (encode_of_decodeWord (decodeWord_of_decodedAt h)).1

/-- Settles O51: the step executes the placed word at the width of the state, and that is what the instruction of the
word does there. -/
theorem placedInstructionIsRunNext : Obligations.PlacedInstructionIsRunNext := by
  intro s nbits w i h
  have hf : (s.withFetchWord nbits w).fetch = some (tableWord nbits w) := State.fetch_loadWord _ _
  rw [step_of_fetch_some rfl hf, ← encode_of_decodeTableWord h]
  exact (execAgreesWithTheInstructionsWord i _).symm

end Sys2Proof.Machine

/-! # Carry-less multiply (O19, O52 to O54) -/

namespace Sys2Proof.Machine

/-! ## The exclusive OR of the bits of a list -/

/-- The exclusive OR of `p i` over the places `i` of a list. -/
def parity (p : Nat → Bool) (l : List Nat) : Bool := l.countP p % 2 == 1

@[simp] theorem parity_nil (p : Nat → Bool) : parity p [] = false := rfl

/-- One more place at the end. -/
theorem parity_concat (p : Nat → Bool) (l : List Nat) (i : Nat) : parity p (l ++ [i]) = (parity p l ^^ p i) := by
  rw [parity, parity, List.countP_append, List.countP_singleton]
  cases p i
  · simp
  · obtain even | odd := Nat.mod_two_eq_zero_or_one (l.countP p) <;> simp [Nat.add_mod, *]

/-- The exclusive OR depends on the bits at the places alone. -/
theorem parity_congr {p q : Nat → Bool} {l : List Nat} (h : ∀ i ∈ l, p i = q i) : parity p l = parity q l := by
  rw [parity, parity, List.countP_congr fun i hi => by rw [h i hi]]

/-- A first place whose bit is 0 adds nothing. -/
theorem parity_cons_of_false {p : Nat → Bool} {i : Nat} (h : p i = false) (l : List Nat) :
    parity p (i :: l) = parity p l := by
  rw [parity, parity, List.countP_cons_of_neg (by simp [h])]

/-- Places past the last 1 add nothing. -/
theorem parity_range_of_false {p : Nat → Bool} {m : Nat} (h : ∀ i, m ≤ i → p i = false) (k : Nat) :
    parity p (List.range (m + k)) = parity p (List.range m) := by
  induction k with
  | zero => rfl
  | succ k ih => rw [← Nat.add_assoc, List.range_succ, parity_concat, ih, h _ (m.le_add_right k), Bool.xor_false]

/-- The places of a range can be taken in the opposite order. -/
theorem parity_range_reflect (p : Nat → Bool) (n : Nat) :
    parity p (List.range n) = parity (fun i => p (n - 1 - i)) (List.range n) := by
  have reflected : (List.range n).reverse = (List.range n).map (n - 1 - ·) := by
    rw [List.range_eq_range', List.reverse_range', ← List.range_eq_range', Nat.zero_add]
  rw [parity, parity, ← List.countP_reverse, reflected, List.countP_map]
  rfl

/-! ## The bits of the product -/

/-- Bit `j` of turn `i` of the product: `a[j-i] & b[i]`. -/
def turnBit (a b : BitVec n) (j i : Nat) : Bool := decide (i ≤ j) && a.getLsbD (j - i) && b.getLsbD i

/-- A bit of the loop's value is the exclusive OR of its turns' bits. -/
theorem getLsbD_carrylessPartial (a b : BitVec n) {j : Nat} (hj : j < 2 * n) (k : Nat) :
    (carrylessPartial a b k).getLsbD j = parity (turnBit a b j) (List.range k) := by
  induction k with
  | zero => simp [carrylessPartial]
  | succ k ih =>
    rw [carrylessPartial, List.range_succ, parity_concat, ← ih, turnBit]
    cases b.getLsbD k with
    | false => simp
    | true =>
      have inside : j - k < 2 * n := by omega
      simp only [if_true, BitVec.getLsbD_xor, BitVec.getLsbD_shiftLeft, BitVec.getLsbD_setWidth, hj, inside,
        decide_true, Bool.true_and, Bool.and_true, ← decide_not, Nat.not_lt]

/-- A bit of the product is the exclusive OR over all n turns. -/
theorem getLsbD_carrylessProduct (a b : BitVec n) {j : Nat} (hj : j < 2 * n) :
    (carrylessProduct a b).getLsbD j = parity (turnBit a b j) (List.range n) :=
  getLsbD_carrylessPartial a b hj n

/-- A bit of the product is the spec's: over i + j = k alone, since beyond it and beyond the width a turn's bit is 0. -/
theorem parity_turnBit_eq_productBit (a b : BitVec n) (k : Nat) :
    parity (turnBit a b k) (List.range n) = productBit a.toNat b.toNat k := by
  have past_width : ∀ i, n ≤ i → turnBit a b k i = false := fun i hi => by simp [turnBit, hi]
  have past_bit : ∀ i, k + 1 ≤ i → turnBit a b k i = false := fun i hi => by
    simp [turnBit, Nat.not_le_of_lt hi]
  have turns : parity (turnBit a b k) (List.range (k + 1)) = productBit a.toNat b.toNat k := by
    refine parity_congr fun i hi => ?_
    have inside : i ≤ k := Nat.le_of_lt_succ (List.mem_range.mp hi)
    simp [turnBit, inside, BitVec.testBit_toNat]
  calc parity (turnBit a b k) (List.range n)
    _ = parity (turnBit a b k) (List.range (n + (k + 1))) := (parity_range_of_false past_width _).symm
    _ = parity (turnBit a b k) (List.range (k + 1)) := by rw [Nat.add_comm, parity_range_of_false past_bit]
    _ = productBit a.toNat b.toNat k := turns

/-- The product's bit for i + j = k does not depend on the order of the factors. -/
theorem productBit_comm (a b k : Nat) : productBit a b k = productBit b a k := by
  refine (parity_range_reflect _ (k + 1)).trans (parity_congr fun i hi => ?_)
  have back : k - (k - i) = i := Nat.sub_sub_self (Nat.le_of_lt_succ (List.mem_range.mp hi))
  rw [Nat.add_sub_cancel, back, Bool.and_comm]

/-! ## The three slices -/

/-- Bits XLEN-1 to 0 of the product, turn by turn. -/
theorem getLsbD_carrylessLow (a b : BitVec n) {j : Nat} (hj : j < n) :
    (carrylessLow a b).getLsbD j = parity (turnBit a b j) (List.range n) := by
  rw [carrylessLow, BitVec.getLsbD_extractLsb', decide_eq_true hj, Bool.true_and, Nat.zero_add,
    getLsbD_carrylessProduct a b (by omega)]

/-- Bits 2·XLEN-1 to XLEN of the product, turn by turn. -/
theorem getLsbD_carrylessHigh (a b : BitVec n) {j : Nat} (hj : j < n) :
    (carrylessHigh a b).getLsbD j = parity (turnBit a b (n + j)) (List.range n) := by
  rw [carrylessHigh, BitVec.getLsbD_extractLsb', decide_eq_true hj, Bool.true_and,
    getLsbD_carrylessProduct a b (by omega)]

/-- Bits 2·XLEN-2 to XLEN-1 of the product, turn by turn. -/
theorem getLsbD_carrylessReversed (a b : BitVec n) {j : Nat} (hj : j < n) :
    (carrylessReversed a b).getLsbD j = parity (turnBit a b (n - 1 + j)) (List.range n) := by
  rw [carrylessReversed, BitVec.getLsbD_extractLsb', decide_eq_true hj, Bool.true_and,
    getLsbD_carrylessProduct a b (by omega)]

/-- Settles O19: each slice takes its bits of the product, which are the spec's. -/
theorem carrylessMultipliesSliceTheProduct : Obligations.CarrylessMultipliesSliceTheProduct := by
  have clmul_mem := Laws.row_mem (k := 35) rfl
  have clmulh_mem := Laws.row_mem (k := 36) rfl
  have clmulr_mem := Laws.row_mem (k := 37) rfl
  refine ⟨fun x => wordsMean_of_row clmul_mem ?_, fun x => wordsMean_of_row clmulh_mem ?_,
    fun x => wordsMean_of_row clmulr_mem ?_, fun rd rs1 rs2 s => ⟨Completes.of_retire_bits rfl fun k hk => ?low,
    Completes.of_retire_bits rfl fun k hk => ?high, Completes.of_retire_bits rfl fun k hk => ?reversed⟩⟩
  case low =>
    rw [← BitVec.getLsbD_eq_getElem, getLsbD_carrylessLow _ _ hk]
    exact parity_turnBit_eq_productBit ..
  case high =>
    rw [← BitVec.getLsbD_eq_getElem, getLsbD_carrylessHigh _ _ hk, Nat.add_comm]
    exact parity_turnBit_eq_productBit ..
  case reversed =>
    have place : s.xlen.bits - 1 + k = k + s.xlen.bits - 1 := by omega
    rw [← BitVec.getLsbD_eq_getElem, getLsbD_carrylessReversed _ _ hk, place]
    exact parity_turnBit_eq_productBit ..
  all_goals cases x <;> rfl

/-! ## The source's loops -/

/-- A bit of a source's loop is the exclusive OR over its turns of the terms that `b` takes in. -/
theorem getLsbD_xorLoop (b : BitVec n) (term : Nat → BitVec n) (start turns j : Nat) :
    (xorLoop b term start turns).getLsbD j =
      parity (fun i => b.getLsbD i && (term i).getLsbD j) (List.range' start turns) := by
  induction turns with
  | zero => simp [xorLoop]
  | succ turns ih =>
    rw [xorLoop] at ih ⊢
    rw [List.range'_concat, List.foldl_append, parity_concat, ← ih]
    simp only [List.foldl_cons, List.foldl_nil]
    split
    next taken => rw [BitVec.getLsbD_xor, taken, Bool.true_and]
    next skipped => rw [Bool.eq_false_iff.mpr skipped, Bool.false_and, Bool.xor_false]

/-- A value whose bits are the turns' bits of the product is the source's loop with those terms. -/
theorem eq_xorLoop {v b : BitVec n} {term : Nat → BitVec n} {p : Nat → Nat → Bool} {start turns : Nat}
    (hv : ∀ j < n, v.getLsbD j = parity (p j) (List.range' start turns))
    (hterm : ∀ j < n, ∀ i ∈ List.range' start turns, p j i = (b.getLsbD i && (term i).getLsbD j)) :
    v = xorLoop b term start turns :=
  BitVec.eq_of_getLsbD_eq fun j hj => by rw [hv j hj, getLsbD_xorLoop, parity_congr (hterm j hj)]

/-- The turns of a loop: the first, and the others. -/
theorem range_eq_zero_cons {n : Nat} (hn : 0 < n) : List.range n = 0 :: List.range' 1 (n - 1) := by
  obtain ⟨m, rfl⟩ := Nat.exists_eq_succ_of_ne_zero hn.ne'
  exact List.range_eq_range'

/-- The high slice needs no turn 0: its bit would be `a[XLEN+j]`, past the width. -/
theorem parity_turnBit_range_skip_zero (a b : BitVec n) (hn : 0 < n) (j : Nat) :
    parity (turnBit a b (n + j)) (List.range n) = parity (turnBit a b (n + j)) (List.range' 1 (n - 1)) := by
  have first : turnBit a b (n + j) 0 = false := by simp [turnBit]
  rw [range_eq_zero_cons hn, parity_cons_of_false first]

/-- Settles O52: bit j of the term of turn i is the bit of `a` that turn i puts there. -/
theorem carrylessSlicesEqualTheSourcesLoops : Obligations.CarrylessSlicesEqualTheSourcesLoops := by
  intro n a b hn
  have turn {l : Nat} {i : Nat} (hi : i ∈ List.range' 0 l) : i < l := by simpa using hi
  refine ⟨eq_xorLoop (p := fun j => turnBit a b j) (fun j hj => ?lowBits) fun j hj i hi => ?low,
    eq_xorLoop (p := fun j => turnBit a b (n + j)) (fun j hj => ?highBits) fun j hj i hi => ?high,
    eq_xorLoop (p := fun j => turnBit a b (n - 1 + j)) (fun j hj => ?reversedBits) fun j hj i hi => ?reversed⟩
  case lowBits => rw [getLsbD_carrylessLow a b hj, List.range_eq_range']
  case highBits => rw [getLsbD_carrylessHigh a b hj, parity_turnBit_range_skip_zero a b hn]
  case reversedBits => rw [getLsbD_carrylessReversed a b hj, List.range_eq_range']
  case low =>
    rw [turnBit, BitVec.getLsbD_shiftLeft, decide_eq_true hj, Bool.true_and, Bool.and_comm]
    simp only [Nat.not_lt, ← decide_not]
  case high =>
    have small : i < n := by
      have := (List.mem_range'_1.mp hi).2
      omega
    have reaches : i ≤ n + j := by omega
    have place : n + j - i = n - i + j := by omega
    rw [turnBit, BitVec.getLsbD_ushiftRight, decide_eq_true reaches, Bool.true_and, Bool.and_comm, place]
  case reversed =>
    have small := turn hi
    have reaches : i ≤ n - 1 + j := by omega
    have place : n - 1 + j - i = n - i - 1 + j := by omega
    rw [turnBit, BitVec.getLsbD_ushiftRight, decide_eq_true reaches, Bool.true_and, Bool.and_comm, place]

/-! ## The reversed product, and symmetry -/

/-- Settles O53: turn i of the reversed product is turn XLEN-1-i of the product of the reversed factors, which takes
in the same bits. -/
theorem clmulrIsReversedClmulOfReversed : Obligations.ClmulrIsReversedClmulOfReversed := by
  intro n a b _
  refine BitVec.eq_of_getLsbD_eq fun j hj => ?_
  have mirror : n - 1 - j < n := by omega
  rw [BitVec.getLsbD_reverse, BitVec.getMsbD, decide_eq_true hj, Bool.true_and, getLsbD_carrylessReversed a b hj,
    getLsbD_carrylessLow _ _ mirror, parity_range_reflect]
  refine parity_congr fun i hi => ?_
  have small : i < n := List.mem_range.mp hi
  have reaches : n - 1 - i ≤ n - 1 + j := by omega
  have place : n - 1 + j - (n - 1 - i) = j + i := by omega
  rw [turnBit, turnBit, decide_eq_true reaches, place, BitVec.getLsbD_reverse, BitVec.getLsbD_reverse, BitVec.getMsbD,
    BitVec.getMsbD, decide_eq_true small, Bool.true_and, Bool.true_and]
  by_cases inside : j + i < n
  · have reaches' : i ≤ n - 1 - j := by omega
    have small' : n - 1 - j - i < n := by omega
    have place' : n - 1 - (n - 1 - j - i) = j + i := by omega
    rw [decide_eq_true reaches', decide_eq_true small', place', Bool.true_and, Bool.true_and]
  · have beyond : ¬i ≤ n - 1 - j := by omega
    rw [decide_eq_false beyond, BitVec.getLsbD_of_ge a _ (Nat.le_of_not_lt inside), Bool.false_and, Bool.false_and,
      Bool.false_and]

/-- The highest bit of the product is 0: turn i would put there `a[2·XLEN-1-i]`, past the width. -/
theorem getLsbD_carrylessProduct_top (a b : BitVec n) (hn : 0 < n) :
    (carrylessProduct a b).getLsbD (2 * n - 1) = false := by
  have zeros : ∀ i ∈ List.range n, turnBit a b (2 * n - 1) i = false := fun i hi => by
    have small : i < n := List.mem_range.mp hi
    have past : n ≤ 2 * n - 1 - i := by omega
    rw [turnBit, BitVec.getLsbD_of_ge a _ past, Bool.and_false, Bool.false_and]
  rw [getLsbD_carrylessProduct a b (by omega), parity_congr (q := fun _ => false) zeros]
  simp [parity]

/-- Settles O54: the bits are the spec's, which are symmetric. -/
theorem carrylessProductIsSymmetric : Obligations.CarrylessProductIsSymmetric := by
  intro n a b hn
  have top := getLsbD_carrylessProduct_top a b hn
  refine ⟨BitVec.eq_of_getLsbD_eq fun j hj => ?_, top, ?_⟩
  · rw [getLsbD_carrylessProduct a b hj, getLsbD_carrylessProduct b a hj, parity_turnBit_eq_productBit,
      parity_turnBit_eq_productBit, productBit_comm]
  · have place : n + (n - 1) = 2 * n - 1 := by omega
    rw [carrylessHigh, BitVec.getLsbD_extractLsb', place, top, Bool.and_false]

end Sys2Proof.Machine

/-! # Single bits (O20 to O23, O58) -/

namespace Sys2Proof.Machine

/-! ## The bits of the four results -/

/-- The value with one bit set, bit by bit. -/
theorem getLsbD_oneBit {n i : Nat} (hi : i < n) (k : Nat) : (oneBit n k).getLsbD i = (i == k) := by
  have single : (oneBit n k).getLsbD i = (decide (k < n) && decide (k = i)) := BitVec.getLsbD_twoPow k i
  rw [single]
  obtain rfl | ne := eq_or_ne i k
  · simp [hi]
  · simp [ne, ne.symm]

/-- Clearing a bit, bit by bit. -/
theorem getLsbD_clearBit (v : BitVec n) (k : Nat) {i : Nat} (hi : i < n) :
    (clearBit v k).getLsbD i = (v.getLsbD i && i != k) := by
  rw [clearBit, BitVec.getLsbD_and, BitVec.getLsbD_not, getLsbD_oneBit hi, decide_eq_true hi, Bool.true_and]
  rfl

/-- Inverting a bit, bit by bit. -/
theorem getLsbD_invertBit (v : BitVec n) (k : Nat) {i : Nat} (hi : i < n) :
    (invertBit v k).getLsbD i = (v.getLsbD i != (i == k)) := by
  rw [invertBit, BitVec.getLsbD_xor, getLsbD_oneBit hi, Bool.bne_eq_xor]

/-- Setting a bit, bit by bit. -/
theorem getLsbD_setBit (v : BitVec n) (k : Nat) {i : Nat} (hi : i < n) :
    (setBit v k).getLsbD i = (v.getLsbD i || i == k) := by
  rw [setBit, BitVec.getLsbD_or, getLsbD_oneBit hi]

/-- The extracted bit as a number. -/
theorem toNat_extractBit (v : BitVec n) {k : Nat} (hk : k < n) :
    (extractBit v k).toNat = if v.getLsbD k then 1 else 0 := by
  have width : 1 ≤ n := Nat.one_le_of_lt hk
  rw [extractBit, BitVec.toNat_setWidth_of_le width, BitVec.extractLsb'_toNat, Nat.shiftRight_zero,
    BitVec.toNat_ushiftRight, pow_one, Nat.shiftRight_eq_div_pow, ← Nat.toNat_testBit, BitVec.testBit_toNat]
  cases v.getLsbD k <;> rfl

/-- The model clears the bit the spec clears. -/
theorem clearsBit_clearBit (v : BitVec n) (k : Nat) : ClearsBit n v.toNat k (clearBit v k).toNat := by
  intro i hi
  rw [BitVec.testBit_toNat, BitVec.testBit_toNat, getLsbD_clearBit v k hi]

/-- The model inverts the bit the spec inverts. -/
theorem invertsBit_invertBit (v : BitVec n) (k : Nat) : InvertsBit n v.toNat k (invertBit v k).toNat := by
  intro i hi
  rw [BitVec.testBit_toNat, BitVec.testBit_toNat, getLsbD_invertBit v k hi]

/-- The model sets the bit the spec sets. -/
theorem setsBit_setBit (v : BitVec n) (k : Nat) : SetsBit n v.toNat k (setBit v k).toNat := by
  intro i hi
  rw [BitVec.testBit_toNat, BitVec.testBit_toNat, getLsbD_setBit v k hi]

/-- The model extracts the bit the spec extracts. -/
theorem extractsBit_extractBit (v : BitVec n) {k : Nat} (hk : k < n) :
    ExtractsBit n v.toNat k (extractBit v k).toNat := by
  rw [ExtractsBit, toNat_extractBit v hk, BitVec.testBit_toNat]

/-- A register's amount is less than XLEN. -/
theorem amountXlen_reg_lt (s : State) (r : Reg) : amountXlen (s.reg r) < s.xlen.bits := by
  rw [amountXlen_reg]
  exact Nat.mod_lt _ (Nat.lt_of_lt_of_le (by decide) s.xlen.word_le_bits)

/-! ## The statements -/

/-- Settles O20: the index is `rs2` modulo XLEN. -/
theorem singleBitsByRegister : Obligations.SingleBitsByRegister := by
  have bclr_mem := Laws.row_mem (k := 38) rfl
  have binv_mem := Laws.row_mem (k := 44) rfl
  have bset_mem := Laws.row_mem (k := 47) rfl
  refine ⟨fun x => wordsMean_of_row bclr_mem (by cases x <;> rfl),
    fun x => wordsMean_of_row binv_mem (by cases x <;> rfl),
    fun x => wordsMean_of_row bset_mem (by cases x <;> rfl), fun rd rs1 rs2 s => ?_⟩
  rw [← amountXlen_reg]
  exact ⟨⟨_, .of_retire rfl, clearsBit_clearBit _ _⟩, ⟨_, .of_retire rfl, invertsBit_invertBit _ _⟩,
    ⟨_, .of_retire rfl, setsBit_setBit _ _⟩⟩

/-- Settles O21: the index is `rs2` modulo XLEN. -/
theorem bextExtractsOneBit : Obligations.BextExtractsOneBit := by
  have bext_mem := Laws.row_mem (k := 41) rfl
  refine ⟨fun x => wordsMean_of_row bext_mem (by cases x <;> rfl), fun rd rs1 rs2 s => ?_⟩
  rw [← amountXlen_reg]
  exact ⟨_, .of_retire rfl, extractsBit_extractBit _ (amountXlen_reg_lt s rs2)⟩

/-- Settles O22: each encoding is a row of one width, and the words with shamt[5] = 1 have a reserved pattern. -/
theorem singleBitsByImmediate : Obligations.SingleBitsByImmediate := by
  have bclri_reserved : 0x4A001013#32 ∈ reservedPatterns := by decide
  have binvi_reserved : 0x6A001013#32 ∈ reservedPatterns := by decide
  have bseti_reserved : 0x2A001013#32 ∈ reservedPatterns := by decide
  refine ⟨⟨wordsMean_of_row (Laws.row_mem (k := 39) rfl) rfl, wordsMean_of_row (Laws.row_mem (k := 40) rfl) rfl,
    fun w hw => ?bclri, fun rd rs1 s => ?clears⟩,
    ⟨wordsMean_of_row (Laws.row_mem (k := 45) rfl) rfl, wordsMean_of_row (Laws.row_mem (k := 46) rfl) rfl,
    fun w hw => ?binvi, fun rd rs1 s => ?inverts⟩,
    ⟨wordsMean_of_row (Laws.row_mem (k := 48) rfl) rfl, wordsMean_of_row (Laws.row_mem (k := 49) rfl) rfl,
    fun w hw => ?bseti, fun rd rs1 s => ?sets⟩⟩
  case bclri => exact decodeWord_of_mem_reservedPatterns (hw ▸ bclri_reserved)
  case binvi => exact decodeWord_of_mem_reservedPatterns (hw ▸ binvi_reserved)
  case bseti => exact decodeWord_of_mem_reservedPatterns (hw ▸ bseti_reserved)
  case clears => exact completes_with_immediate (fun _ v k _ => clearsBit_clearBit v k) (fun _ => rfl) fun _ => rfl
  case inverts => exact completes_with_immediate (fun _ v k _ => invertsBit_invertBit v k) (fun _ => rfl) fun _ => rfl
  case sets => exact completes_with_immediate (fun _ v k _ => setsBit_setBit v k) (fun _ => rfl) fun _ => rfl

/-- Settles O23: each encoding is a row of one width, and the words with shamt[5] = 1 have a reserved pattern. -/
theorem bextiExtractsOneBit : Obligations.BextiExtractsOneBit := by
  have rv32_mem := Laws.row_mem (k := 42) rfl
  have rv64_mem := Laws.row_mem (k := 43) rfl
  have reserved : 0x4A005013#32 ∈ reservedPatterns := by decide
  refine ⟨wordsMean_of_row rv32_mem rfl, wordsMean_of_row rv64_mem rfl,
    fun w hw => decodeWord_of_mem_reservedPatterns (hw ▸ reserved), fun rd rs1 s => ?_⟩
  exact completes_with_immediate (fun _ v _ hk => extractsBit_extractBit v hk) (fun _ => rfl) fun _ => rfl

/-! ## The identities -/

/-- The extracted bit is 1 exactly when the bit is set. -/
theorem extractBit_eq_one_iff (v : BitVec n) {k : Nat} (hk : k < n) :
    extractBit v k = 1#n ↔ v.getLsbD k = true := by
  have one : (1#n).toNat = 1 := Nat.mod_eq_of_lt (Nat.one_lt_two_pow (Nat.ne_zero_of_lt hk))
  rw [BitVec.toNat_eq, toNat_extractBit v hk, one]
  cases v.getLsbD k <;> decide

/-- The extracted bit is 0 exactly when the bit is clear. -/
theorem extractBit_eq_zero_iff (v : BitVec n) {k : Nat} (hk : k < n) :
    extractBit v k = 0#n ↔ v.getLsbD k = false := by
  rw [BitVec.toNat_eq, toNat_extractBit v hk, BitVec.toNat_zero]
  cases v.getLsbD k <;> decide

/-- Settles O58: bit k decides what inverting it does, and every other bit is as before. -/
theorem singleBitIdentities : Obligations.SingleBitIdentities := by
  intro n v k hk
  refine ⟨?set, ?clear, fun h => ?invert_clear, fun h => ?invert_set, ?twice⟩
  case set => rw [extractBit_eq_one_iff _ hk, getLsbD_setBit v k hk, beq_self_eq_true, Bool.or_true]
  case clear => rw [extractBit_eq_zero_iff _ hk, getLsbD_clearBit v k hk, bne_self_eq_false, Bool.and_false]
  case invert_clear =>
    rw [extractBit_eq_zero_iff v hk] at h
    refine BitVec.eq_of_getLsbD_eq fun i hi => ?_
    rw [getLsbD_invertBit v k hi, getLsbD_setBit v k hi]
    obtain rfl | ne := eq_or_ne i k
    · rw [h, beq_self_eq_true]; rfl
    · rw [beq_eq_false_iff_ne.mpr ne, Bool.bne_false, Bool.or_false]
  case invert_set =>
    rw [extractBit_eq_one_iff v hk] at h
    refine BitVec.eq_of_getLsbD_eq fun i hi => ?_
    rw [getLsbD_invertBit v k hi, getLsbD_clearBit v k hi]
    obtain rfl | ne := eq_or_ne i k
    · rw [h, beq_self_eq_true, bne_self_eq_false, bne_self_eq_false, Bool.and_false]
    · rw [beq_eq_false_iff_ne.mpr ne, bne_iff_ne.mpr ne, Bool.bne_false, Bool.and_true]
  case twice => rw [invertBit, invertBit, BitVec.xor_assoc, BitVec.xor_self, BitVec.xor_zero]

end Sys2Proof.Machine

/-! # Register overlap (O28) -/

namespace Sys2Proof.Machine

/-- An instruction that retires a value completes with any number the value reads as. -/
theorem Completes.of_retire_eq {i : Instr} {s : State} {v : XWord s.xlen} {a : Nat}
    (h : exec i s = .next (s.retire i.dest v)) (value : v.toNat = a) : Completes i s a :=
  value ▸ .of_retire h

/-- Settles O28: every meaning reads its sources in the state before it writes. -/
theorem overlappingRegistersUseOldValues : Obligations.OverlappingRegistersUseOldValues := by
  intro r s _
  refine ⟨.of_retire_eq rfl ?andn, .of_retire_eq rfl ?xnor, ?sh1add, ?rol, .of_retire_eq rfl ?bset⟩
  case andn => exact congrArg BitVec.toNat (BitVec.and_not_self _)
  case xnor => rw [BitVec.xor_self, BitVec.not_zero, BitVec.toNat_allOnes]
  case sh1add =>
    have completes : Completes (.sh1add r r r) s _ := .of_shiftAdd 1 rfl
    have sum : s.regNat r + s.regNat r * 2 ^ 1 = 3 * s.regNat r := by omega
    rwa [Nat.add_mod_mod, sum] at completes
  case rol =>
    rw [← amountXlen_reg]
    exact ⟨_, .of_retire rfl, isRotatedLeft_rotateLeft _ (amountXlen_reg_lt s r)⟩
  case bset =>
    have only : setBit (s.reg 0#5) (amountXlen (s.reg r)) = BitVec.twoPow _ (amountXlen (s.reg r)) :=
      BitVec.zero_or
    rw [only, BitVec.toNat_twoPow_of_lt (amountXlen_reg_lt s r), amountXlen_reg]

end Sys2Proof.Machine

/-! # Identities of rotates, counts and bytes (O55 to O57) -/

namespace Sys2Proof.Machine

/-! ## Rotates -/

/-- A left rotate is the complementary right rotate: the two shifts change places. -/
theorem rotateLeft_eq_rotateRight (v : BitVec n) {s : Nat} (hs : s < n) :
    rotateLeft v s = rotateRight v ((n - s) % n) := by
  obtain rfl | positive := Nat.eq_zero_or_pos s
  · rw [Nat.sub_zero, Nat.mod_self, rotateLeft, rotateRight, Nat.sub_zero]
    rw [BitVec.shiftLeft_zero, BitVec.ushiftRight_zero, BitVec.ushiftRight_eq_zero (Nat.le_refl n),
      BitVec.shiftLeft_eq_zero (Nat.le_refl n)]
  · have complement : (n - s) % n = n - s := Nat.mod_eq_of_lt (Nat.sub_lt (Nat.zero_lt_of_lt hs) positive)
    rw [complement, rotateLeft, rotateRight, Nat.sub_sub_self hs.le, BitVec.or_comm]

/-- The 1 bits among the m + k lowest are those among the m lowest and those among the k above. -/
theorem onesOf_add (m k a : Nat) : onesOf (m + k) a = onesOf m a + onesOf k (a >>> m) := by
  rw [onesOf, onesOf, onesOf, List.range_add, List.countP_append, List.countP_map]
  congr 1
  exact List.countP_congr fun i _ => by simp [Nat.testBit_shiftRight]

/-- Numbers that agree on the N lowest bits have as many 1 bits there. -/
theorem onesOf_congr {n a b : Nat} (h : ∀ i, i < n → a.testBit i = b.testBit i) : onesOf n a = onesOf n b :=
  List.countP_congr fun i hi => by rw [h i (List.mem_range.mp hi)]

/-- A left rotate by s keeps the 1 bits: the n - s lowest bits move up s places, and the s highest become the
lowest. -/
theorem onesOf_of_isRotatedLeft {n a s v : Nat} (hs : s < n) (h : IsRotatedLeft n a s v) : onesOf n v = onesOf n a := by
  have moved : onesOf (n - s) (v >>> s) = onesOf (n - s) a := onesOf_congr fun i hi => by
    have place : (i + s) % n = s + i := by rw [Nat.mod_eq_of_lt (by omega), Nat.add_comm]
    rw [Nat.testBit_shiftRight, ← place, h i (by omega)]
  have wrapped : onesOf s v = onesOf s (a >>> (n - s)) := onesOf_congr fun i hi => by
    have place : (n - s + i + s) % n = i := by
      have sum : n - s + i + s = n + i := by omega
      rw [sum, Nat.add_mod_left, Nat.mod_eq_of_lt (by omega)]
    rw [Nat.testBit_shiftRight, ← h (n - s + i) (by omega), place]
  calc onesOf n v
    _ = onesOf (s + (n - s)) v := by rw [Nat.add_sub_cancel' hs.le]
    _ = onesOf s (a >>> (n - s)) + onesOf (n - s) a := by rw [onesOf_add, moved, wrapped]
    _ = onesOf (n - s + s) a := by rw [onesOf_add, Nat.add_comm]
    _ = onesOf n a := by rw [Nat.sub_add_cancel hs.le]

/-- Settles O55: the 1 bits are counted at the places the rotate moves them to. -/
theorem leftRotateIsRightRotate : Obligations.LeftRotateIsRightRotate := by
  intro n v s hs
  refine ⟨rotateLeft_eq_rotateRight v hs, ?_⟩
  rw [countOnes, countOnes, countOnesBelow_eq_onesOf, countOnesBelow_eq_onesOf]
  exact onesOf_of_isRotatedLeft hs (isRotatedLeft_rotateLeft v hs)

/-! ## Counts -/

/-- Every bit is 1 in a value or in its inverse. -/
theorem countOnes_add_countOnes_not (v : BitVec n) : countOnes v + countOnes (~~~v) = n := by
  have inverse : onesOf n (~~~v).toNat = (List.range n).countP fun k => ¬v.toNat.testBit k :=
    List.countP_congr fun k hk => by
      rw [BitVec.testBit_toNat, BitVec.testBit_toNat, BitVec.getLsbD_not, decide_eq_true (List.mem_range.mp hk)]
      simp
  rw [countOnes, countOnes, countOnesBelow_eq_onesOf, countOnesBelow_eq_onesOf, inverse, onesOf,
    ← List.length_eq_countP_add_countP, List.length_range]

/-- A number below 2^c with its c lowest bits set has c 1 bits. -/
theorem onesOf_two_pow_sub_one {n c : Nat} (hc : c ≤ n) : onesOf n (2 ^ c - 1) = c := by
  obtain ⟨k, rfl⟩ := Nat.exists_eq_add_of_le hc
  have below : onesOf c (2 ^ c - 1) = c := by
    rw [onesOf, List.countP_eq_length.mpr, List.length_range]
    exact fun i hi => by rw [Nat.testBit_two_pow_sub_one, decide_eq_true (List.mem_range.mp hi)]
  have above : onesOf k ((2 ^ c - 1) >>> c) = 0 := by
    rw [onesOf, List.countP_eq_zero]
    exact fun i _ => by simp [Nat.testBit_shiftRight, Nat.testBit_two_pow_sub_one]
  rw [onesOf_add, below, above, Nat.add_zero]

/-- A value that is not 0 has a 1 bit. -/
theorem exists_getLsbD_of_ne_zero {v : BitVec n} (hv : v ≠ 0#n) : ∃ k, k < n ∧ v.getLsbD k = true := by
  by_contra! zeros
  exact hv (BitVec.eq_of_getLsbD_eq fun k hk => by
    rw [BitVec.getLsbD_zero, Bool.eq_false_iff]
    exact zeros k hk)

/-- The count of trailing zeros of a value that is not 0 is the place of its lowest 1. -/
theorem countTrailingZeros_lowest_one {v : BitVec n} (hv : v ≠ 0#n) : countTrailingZeros v < n ∧
    v.getLsbD (countTrailingZeros v) = true ∧ ∀ k, k < countTrailingZeros v → v.getLsbD k = false := by
  obtain ⟨_, before, found⟩ := isTrailingZeros_countTrailingZeros v
  obtain ⟨k, hk, one⟩ := exists_getLsbD_of_ne_zero hv
  have inside : countTrailingZeros v < n := Nat.lt_of_not_le fun past =>
    Bool.noConfusion (one.symm.trans (before k (hk.trans_le past)))
  exact ⟨inside, found inside, before⟩

/-- `v & -v` keeps the lowest 1 of a value alone: below it the negation's bits are 0 as the value's are, at it they are
the value's, and above it the inverse. -/
theorem and_neg_eq_twoPow {v : BitVec n} {c : Nat} (hc : c < n) (one : v.getLsbD c = true)
    (zeros : ∀ k, k < c → v.getLsbD k = false) : v &&& -v = BitVec.twoPow n c := by
  refine BitVec.eq_of_getLsbD_eq fun i hi => ?_
  rw [BitVec.getLsbD_and, BitVec.getLsbD_neg, BitVec.getLsbD_twoPow]
  obtain below | rfl | above := Nat.lt_trichotomy i c
  · simp [zeros i below, below.ne']
  · have lowest : ¬∃ j < i, v.getLsbD j = true := by
      rintro ⟨j, hj, set⟩
      exact Bool.noConfusion (set.symm.trans (zeros j hj))
    simp [one, lowest, hi]
  · have lower : ∃ j < i, v.getLsbD j = true := ⟨c, above, one⟩
    cases bit : v.getLsbD i <;> simp [lower, hi, above.ne]

/-- The trailing zeros of a value are the 1 bits of `(v & -v) - 1`. -/
theorem countTrailingZeros_eq_countOnes {v : BitVec n} (hv : v ≠ 0#n) :
    countTrailingZeros v = countOnes ((v &&& -v) - 1#n) := by
  obtain ⟨inside, one, zeros⟩ := countTrailingZeros_lowest_one hv
  have value : (BitVec.twoPow n (countTrailingZeros v) - 1#n).toNat = 2 ^ countTrailingZeros v - 1 := by
    have unit : (1#n).toNat = 1 := Nat.mod_eq_of_lt (Nat.one_lt_two_pow (Nat.ne_zero_of_lt inside))
    have size := BitVec.toNat_twoPow_of_lt inside
    have positive : 1#n ≤ BitVec.twoPow n (countTrailingZeros v) := by
      rw [BitVec.le_def, unit, size]
      exact Nat.one_le_two_pow
    rw [BitVec.toNat_sub_of_le positive, unit, size]
  rw [and_neg_eq_twoPow inside one zeros, countOnes, countOnesBelow_eq_onesOf, value,
    onesOf_two_pow_sub_one inside.le]

/-- The leading zeros of a value that is not 0 are the places above its highest 1, which is at log2 of its number. -/
theorem countLeadingZeros_eq_log2 {v : BitVec n} (hv : v ≠ 0#n) :
    countLeadingZeros v = n - 1 - Nat.log2 v.toNat := by
  obtain ⟨within, above, found⟩ := isLeadingZeros_countLeadingZeros v
  obtain ⟨k, hk, one⟩ := exists_getLsbD_of_ne_zero hv
  have inside : countLeadingZeros v < n := Nat.lt_of_not_le fun past =>
    Bool.noConfusion (one.symm.trans (above k (by omega) hk))
  have nonzero : v.toNat ≠ 0 := fun h => hv (BitVec.eq_of_toNat_eq (h.trans BitVec.toNat_zero.symm))
  have lower : n - 1 - countLeadingZeros v ≤ Nat.log2 v.toNat :=
    (Nat.le_log2 nonzero).mpr (Nat.ge_two_pow_of_testBit (found inside))
  have upper : Nat.log2 v.toNat < n - countLeadingZeros v := by
    refine (Nat.log2_lt nonzero).mpr (Nat.lt_pow_two_of_testBit _ fun j hj => ?_)
    by_cases hjn : j < n
    · exact above j hj hjn
    · exact (BitVec.testBit_toNat v).trans (BitVec.getLsbD_of_ge v j (Nat.le_of_not_lt hjn))
  omega

/-- Settles O56: the lowest 1 fixes the trailing zeros, the highest 1 the leading zeros. -/
theorem countingIdentities : Obligations.CountingIdentities := fun _ v =>
  ⟨countOnes_add_countOnes_not v, fun hv => ⟨countTrailingZeros_eq_countOnes hv, countLeadingZeros_eq_log2 hv⟩⟩

/-! ## Bytes -/

/-- Values of whole bytes are equal when their bytes are. -/
theorem eq_of_byteAt_eq {v w : BitVec n} (hn : 8 ∣ n) (h : ∀ k, k < n / 8 → byteAt v k = byteAt w k) : v = w := by
  refine BitVec.eq_of_getLsbD_eq fun i hi => ?_
  have bit := congrArg (BitVec.getLsbD · (i % 8)) (h (i / 8) (by omega))
  have offset : i % 8 < 8 := Nat.mod_lt i (by decide)
  simpa only [byteAt, BitVec.getLsbD_extractLsb', decide_eq_true offset, Bool.true_and, Nat.div_add_mod] using bit

/-- A register holds whole bytes. -/
theorem eight_dvd_bits (x : Xlen) : 8 ∣ x.bits := by cases x <;> decide

/-- Settles O57 byte by byte: byte n-1-(n-1-k) is byte k, and 0x00 and 0xFF are combined to themselves. -/
theorem byteOperationsTwice : Obligations.ByteOperationsTwice := by
  intro x v
  refine ⟨eq_of_byteAt_eq (eight_dvd_bits x) fun k hk => ?reverse,
    eq_of_byteAt_eq (eight_dvd_bits x) fun k hk => ?combine⟩
  case reverse =>
    have mirror : x.bits / 8 - 1 - k < x.bits / 8 := by omega
    have back : x.bits / 8 - 1 - (x.bits / 8 - 1 - k) = k := by omega
    rw [byteAt_reverseBytes _ hk, byteAt_reverseBytes _ mirror, back]
  case combine =>
    rw [byteAt_orCombine _ hk, byteAt_orCombine v hk]
    split <;> rfl

end Sys2Proof.Machine
